-- ==== Sys2Proof/Word.lean ====
section
/-! DEFINITION. The word, the byte and the one-bit buffer selector of the block (spec/00_scope.md R6, R7; spec/30_encoding.md R61).

Every value of the datapath is an unsigned 32-bit word (R6 `W`, R105), so `+`, `-`, `*`, `>>>`, `<<<`, `^^^`, `&&&` and
`|||` on `BitVec 32` are the operators of R7 (wrapping sums, logical shifts). -/

namespace Sys2Proof

/-- A W-bit word, W = 32 (R6): bit 31 is the most significant (R7). -/
abbrev Word := BitVec 32

/-- A byte: a lane of a word (R43, R44). -/
abbrev Byte := BitVec 8

/-- The TGT bit of a command word (R61): which buffer a byte-layout command works on. -/
inductive Target where
  /-- TGT = 0: KEYBUF with KEY_LEN -/
  | keybuf
  /-- TGT = 1: DATA with LEN -/
  | data
  deriving DecidableEq, Repr

end Sys2Proof
end

