-- ==== Sys2Proof/Config.lean ====
section
/-! DEFINITION. The parameters of rule R6 (spec/00_scope.md) and the free values of the model.

A parameter the spec fixes is a `def`. A parameter it leaves OPEN, and a value it leaves unspecified, is an `opaque`
constant: nothing in Lean can evaluate it, so a claim holds whatever it is. -/

namespace Sys2Proof.Config

/-- `LMIN` (R6): the shortest legal block, in bytes. -/
def lMin : Nat := 12

/-- `LMAX` (R6): the longest legal block, in bytes. -/
def lMax : Nat := 208

/-- `KEYBYTES` (R6): the only legal KEY_LEN of KEYSET. -/
def keyBytes : Nat := 16

/-- `KBUF` (R6, R16): words of the key staging buffer KEYBUF. -/
def kbuf : Nat := 4

/-- `NBUF` (R6, R15): words of the data buffer DATA. -/
def nbuf : Nat := 52

/-- `DELTA` (R6, R97): the round constant. -/
def delta : Word := 0x9E3779B9#32

/-- `ID_VALUE` (R6, R20): the constant the ID register reads as. -/
def idValue : Word := 0x58585445#32

/-- The bytes of the register window: 128 slots of four bytes (R36). -/
def windowBytes : Nat := 512

/-- `BASE` (R6, R36), OPEN: the host byte address of word 0 of the register window. Nothing in the block depends on it
(log entry 3). -/
opaque base : Nat

/-- The host byte address of slot `widx` (R36). The port itself carries only the slot (R39). -/
def hostAddress (widx : Nat) : Nat := base + 4 * widx

/-- How far the latency of a command exceeds one cycle, OPEN: it may depend on the command word and on N (R6 `LAT`,
spec/92_eei_decisions.md, the table of open parameters). -/
opaque latBeyondOne : Word → Nat → Nat

/-- `LAT` (R6, R78), OPEN and at least 1: core cycles from acceptance to completion. No rule depends on its value, and no
step of the model reads it: when a completion comes is said by the schedule (log entry 4). -/
def lat (command : Word) (n : Nat) : Nat := latBeyondOne command n + 1

/-- `draw()` (R8, R48): what the n-th host read of DATA or KEYBUF while the core is busy returns. A FREE VALUE.
That it is a function of n alone, and of no state of the block, is a DESIGN CHOICE (log entry 5). -/
opaque freeWord : Nat → Word

end Sys2Proof.Config
end

