-- ==== Sys2Proof/Syntax.lean ====
section
/-! DEFINITION. The commands of the block: one constructor per row of spec/opcode_table.json (spec/30_encoding.md R63). -/

namespace Sys2Proof

/-- The six commands a host may write to CMD (R63). A command has no operand field but TGT (R62). -/
inductive Instr where
  /-- KEYSET (R94): load the key register file from KEYBUF -/
  | keyset
  /-- ENC (R111): encrypt the block in DATA in place -/
  | enc
  /-- DEC (R117): decrypt the block in DATA in place -/
  | dec
  /-- REVW (R89): reverse the order of the words of a buffer -/
  | revw (t : Target)
  /-- REVB (R90): reverse the bytes of every word of a buffer -/
  | revb (t : Target)
  /-- REVA (R91): reverse a buffer end to end -/
  | reva (t : Target)
  deriving DecidableEq, Repr

end Sys2Proof
end

