-- ==== Sys2Proof/WellFormed.lean ====
section
/-! DEFINITION. What is well formed: a command, and a host access (spec/20_memory.md R39, R40). -/

namespace Sys2Proof

/-- Every term of `Instr` is a command: its one operand, TGT, has two values and both are legal where the constructor
carries it; KEYSET, ENC and DEC, whose TGT must be 0, carry none (R61). There is no ill-formed term. -/
def Instr.wf : Instr → Bool
  | .keyset => true
  | .enc => true
  | .dec => true
  | .revw _ => true
  | .revb _ => true
  | .reva _ => true

/-- A host access of `size` bytes at byte offset `off` of the window is a single word access to a `widx` in 0 to 127
(R40): one whole slot, aligned, inside the window. -/
def wordAccess (off size : Nat) : Bool :=
  size == 4 && off % 4 == 0 && decide (off < Config.windowBytes)

end Sys2Proof
end

