-- ==== Sys2Proof/Decode.lean ====
section
/-! DEFINITION. The decoder of command words and the encoder beside it (spec/30_encoding.md R61–R68). -/

namespace Sys2Proof

/-- Why a command word is Illegal: the three kinds of R67. They raise the same error (R129). -/
inductive IllegalWhy where
  /-- a nonzero bit in 31:5 -/
  | reservedBits
  /-- OP = 0x0 or OP = 0x7 to 0xF -/
  | unassignedOp
  /-- OP ∈ {0x1, 0x2, 0x3} with TGT = 1 -/
  | targetOnFixedCommand
  deriving DecidableEq, Repr

/-- What the decode function of R64 answers. -/
inductive Decoded where
  | command (i : Instr)
  | illegal (why : IllegalWhy)
  deriving DecidableEq, Repr

/-- The TGT bit as a target (R61). -/
def targetOfBit (t : Bool) : Target := if t then .data else .keybuf

/-- A command whose TGT must be 0 (R61, R64). -/
def fixedCommand (t : Bool) (i : Instr) : Decoded :=
  if t then .illegal .targetOnFixedCommand else .command i

/-- The opcode map of R63 on OP (bits 3:0) and TGT (bit 4). -/
def decodeFields (op : BitVec 4) (t : Bool) : Decoded :=
  if op = 0x1#4 then fixedCommand t .keyset
  else if op = 0x2#4 then fixedCommand t .enc
  else if op = 0x3#4 then fixedCommand t .dec
  else if op = 0x4#4 then .command (.revw (targetOfBit t))
  else if op = 0x5#4 then .command (.revb (targetOfBit t))
  else if op = 0x6#4 then .command (.reva (targetOfBit t))
  else .illegal .unassignedOp

/-- R64: the decode function, total on all 2^32 command words. -/
def decode (c : Word) : Decoded :=
  if c.extractLsb' 5 27 = 0#27 then decodeFields (c.extractLsb' 0 4) (c.getLsbD 4)
  else .illegal .reservedBits

/-- The OP field of a command (R63). -/
def Instr.op : Instr → BitVec 4
  | .keyset => 0x1#4
  | .enc => 0x2#4
  | .dec => 0x3#4
  | .revw _ => 0x4#4
  | .revb _ => 0x5#4
  | .reva _ => 0x6#4

/-- A target as the TGT bit (R61). -/
def Target.bit : Target → BitVec 1
  | .keybuf => 0#1
  | .data => 1#1

/-- The TGT field of a command: 0 for KEYSET, ENC and DEC (R61). -/
def Instr.tgt : Instr → BitVec 1
  | .keyset => 0#1
  | .enc => 0#1
  | .dec => 0#1
  | .revw t => t.bit
  | .revb t => t.bit
  | .reva t => t.bit

/-- The CMD word of a command: RSVD = 0 in 31:5, TGT in 4, OP in 3:0 (R61). -/
def encode (i : Instr) : Word := 0#27 ++ i.tgt ++ i.op

/-- What the decoder reads from a table row's word. A command is one 32-bit value on the port (R39, R61), with no byte
order of its own, so the row's bits are the command word's bits. -/
def decodeTableWord (nbits w : Nat) : Option Instr :=
  if w % 2 ^ nbits < 2 ^ 32 then
    match decode (BitVec.ofNat 32 (w % 2 ^ nbits)) with
    | .command i => some i
    | .illegal _ => none
  else none

end Sys2Proof
end

