-- ==== Sys2Proof/Machine/State.lean ====
section
/-! DEFINITION. The state of the block, the events that drive it, the reasons a step can stop, and the state after reset
(spec/10_state.md; spec/70_reset_and_hazards.md R143). -/

namespace Sys2Proof.Machine

/-- The key register file K (R13): four words the host cannot read (R14). -/
structure KeyFile where
  k0 : Word
  k1 : Word
  k2 : Word
  k3 : Word
  deriving DecidableEq, Repr

/-- The scratch registers of one command (R31): round sum, round index, MX operands, word position, round counter. No
host access reads them, and no command reads what an earlier one left in them (R110). -/
structure Datapath where
  sum : Word
  e : BitVec 2
  y : Word
  z : Word
  p : BitVec 6
  q : BitVec 5
  deriving DecidableEq, Repr

/-- The core phase (R30). `busy i` is Busy(op, tgt): a command fixes its OP and its TGT. -/
inductive Phase where
  | idle
  | busy (cmd : Instr)
  deriving DecidableEq, Repr

/-- The buffers DATA and KEYBUF (R15, R16) as bytes by their byte offset in the register window (R37, R44). An address not
listed holds no value: its word's written-mark is clear (R29). Addresses rise strictly. -/
abbrev Memory := List Host.Cell

/-- The canonical form of a memory: addresses strictly rising. An unlisted address holds no value, so no entry can equal
what an unlisted address reads as. -/
abbrev Memory.wf (m : Memory) : Prop := m.Pairwise (fun c d => c.1 < d.1)

/-- The events of the block, in one total order (R10, R52, R73). `off` is a byte offset in the register window and `size` a
number of bytes (`MemRead(a, n)` and `MemWrite(a, n, v)` of R8). -/
inductive Event where
  /-- a host read (R48) -/
  | read (off size : Nat)
  /-- a host write (R49) -/
  | write (off size : Nat) (v : Word)
  /-- the core's completion step (R76) -/
  | completion
  /-- the reset input (R143) -/
  | reset
  deriving DecidableEq, Repr

/-- The state of the block. The last three fields are the MODEL's own and no state of the block (log entries 1, 2, 5). -/
structure State where
  /-- the key register file K (R13) -/
  key : KeyFile
  /-- STATUS.KEY_VALID (R25) -/
  keyValid : Bool
  /-- DATA and KEYBUF with their written-marks (R15, R16, R29) -/
  mem : Memory
  /-- LEN (R17) -/
  len : Word
  /-- OUT_LEN (R18) -/
  outLen : Word
  /-- KEY_LEN (R19) -/
  keyLen : Word
  /-- CTRL.IRQ_EN (R21) -/
  irqEn : Bool
  /-- STATUS.DONE (R24) -/
  done : Bool
  /-- STATUS.OVR (R26) -/
  ovr : Bool
  /-- STATUS.ERR (R27) -/
  err : BitVec 4
  /-- the core phase (R30), which STATUS.BUSY shows (R23) -/
  phase : Phase
  /-- the datapath registers (R31) -/
  dp : Datapath
  /-- the model's own: the events still to come, the next one first (log entry 1) -/
  pending : List Event
  /-- the model's own: what the host read of the step just taken returned (log entry 2) -/
  readData : Option Word
  /-- the model's own: how many free values have been drawn (log entry 5) -/
  draws : Nat
  deriving DecidableEq, Repr

/-- Why a step stops with a fault. -/
inductive Fault where
  /-- R29, `fault(UnwrittenRead)`: a host read, a validation or a completion reads a buffer word whose written-mark is
  clear. Raised by `hostRead`, `validateKeyset` and every completion effect. SAFE: the hardware goes on with contents the
  spec leaves unspecified (spec/93_implementation_defined.md I2, I3). -/
  | unwrittenRead
  deriving DecidableEq, Repr

/-- Why a step is refused. -/
inductive Refusal where
  /-- An instruction of the opcode table that has no meaning yet: raised by no arm of this model. SAFE. -/
  | notModelled (mnemonic : String)
  /-- R40: a host access that is not a single word access to a `widx` in 0 to 127. Raised by `perform`. SAFE: the spec
  says that a model refuses it ("the refusal errs toward unprovable"). -/
  | notAWordAccess
  deriving DecidableEq, Repr

/-- What a step or a part of a step answers. -/
abbrev Result := Host.Outcome State Fault Refusal

/-- The datapath registers after reset: unspecified and not observable (R31, R35). DESIGN CHOICE, zero (log entry 6). -/
def Datapath.reset : Datapath := { sum := 0#32, e := 0#2, y := 0#32, z := 0#32, p := 0#6, q := 0#5 }

/-- The state after reset (R35). The model's own fields: nothing pending, nothing read, no value drawn. -/
def State.reset : State where
  key := ⟨0#32, 0#32, 0#32, 0#32⟩
  keyValid := false
  mem := []
  len := 0#32
  outLen := 0#32
  keyLen := 0#32
  irqEn := false
  done := false
  ovr := false
  err := 0#4
  phase := .idle
  dp := Datapath.reset
  pending := []
  readData := none
  draws := 0

end Sys2Proof.Machine
end

