-- ==== Sys2Proof/Machine/Operands.lean ====
section
/-! DEFINITION. What a command's operands are: byte order, the byte store, the buffers and their lengths, the register
window's map (spec/20_memory.md R37, R42–R44; spec/30_encoding.md R65, R66; spec/41_endian_adapter.md R87). -/

namespace Sys2Proof.Machine

/-! ### Byte order (R42, R43) -/

/-- R43: four consecutive bytes as a word, the byte at the lowest index most significant. -/
def be32 (b0 b1 b2 b3 : Byte) : Word := b0 ++ b1 ++ b2 ++ b3

/-- R43, R44: byte lane `j` (0 to 3) of a word, bits 31-8j : 24-8j. -/
def lane (w : Word) (j : Nat) : Byte := w.extractLsb' (24 - 8 * j) 8

/-- R7: the four bytes of a word in reverse. -/
def bswap32 (w : Word) : Word := be32 (lane w 3) (lane w 2) (lane w 1) (lane w 0)

/-! ### The byte store of DATA and KEYBUF -/

/-- The byte at `a`, `none` where nothing has been written since reset (R29). -/
def readByte : Memory → Nat → Option Byte
  | [], _ => none
  | c :: m, a => if c.1 = a then some c.2 else readByte m a

/-- Store a byte, keeping the addresses strictly rising. -/
def writeByte : Memory → Nat → Byte → Memory
  | [], a, b => [(a, b)]
  | c :: m, a, b =>
    if a < c.1 then (a, b) :: c :: m
    else if a = c.1 then (a, b) :: m
    else c :: writeByte m a b

/-- The word whose first byte is at `a` (R43), `none` where its written-mark is clear (R29). -/
def readWord (m : Memory) (a : Nat) : Option Word :=
  match readByte m a, readByte m (a + 1), readByte m (a + 2), readByte m (a + 3) with
  | some b0, some b1, some b2, some b3 => some (be32 b0 b1 b2 b3)
  | _, _, _, _ => none

/-- Store a word at `a`, its bytes in the order of R43; its written-mark is then set (R29). -/
def writeWord (m : Memory) (a : Nat) (w : Word) : Memory :=
  writeByte (writeByte (writeByte (writeByte m a (lane w 0)) (a + 1) (lane w 1)) (a + 2) (lane w 2)) (a + 3) (lane w 3)

/-- The `n` words from `a` on, `none` where one of them is unwritten. -/
def readWords (m : Memory) (a : Nat) : Nat → Option (List Word)
  | 0 => some []
  | n + 1 =>
    match readWord m a, readWords m (a + 4) n with
    | some w, some ws => some (w :: ws)
    | _, _ => none

/-- Store words from `a` on. -/
def writeWords (m : Memory) (a : Nat) : List Word → Memory
  | [] => m
  | w :: ws => writeWords (writeWord m a w) (a + 4) ws

/-! ### The buffers (R15, R16, R37, R87) -/

/-- The byte offset of a buffer's word 0 in the window: KEYBUF 0x020, DATA 0x100 (R37). -/
def bufBase : Target → Nat
  | .keybuf => 0x020
  | .data => 0x100

/-- The words of a buffer: 4 in KEYBUF, 52 in DATA (R6 `KBUF` and `NBUF`). -/
def bufWords : Target → Nat
  | .keybuf => Config.kbuf
  | .data => Config.nbuf

/-- The capacity `cap` of a buffer in bytes: `ADAPT_MAX_K` = 16, `ADAPT_MAX_D` = 208 (R87). -/
def bufCap (t : Target) : Nat := 4 * bufWords t

/-- The byte offset of word `i` of a buffer: `KB[i]` or `V[i]` (R37). -/
def wordAddr (t : Target) (i : Nat) : Nat := bufBase t + 4 * i

/-- Word `i` of a buffer: `KB[i]` or `V[i]` (R8), `none` where `written` is clear (R29). -/
def State.word (s : State) (t : Target) (i : Nat) : Option Word := readWord s.mem (wordAddr t i)

/-- The written-mark of word `i` of a buffer (R29). -/
def State.written (s : State) (t : Target) (i : Nat) : Bool := (s.word t i).isSome

/-- Byte `j` of a buffer: `KBY(j)` or `DB(j)` (R44). -/
def State.byte (s : State) (t : Target) (j : Nat) : Option Byte := readByte s.mem (bufBase t + j)

/-- Words 0 to n-1 of a buffer, `none` where one of them is unwritten. -/
def State.words (s : State) (t : Target) (n : Nat) : Option (List Word) := readWords s.mem (bufBase t) n

/-- Words 0 onward of a buffer replaced; every other word stays. -/
def State.setWords (s : State) (t : Target) (ws : List Word) : State :=
  { s with mem := writeWords s.mem (bufBase t) ws }

/-- The length register of a buffer: KEY_LEN for KEYBUF, LEN for DATA (R87). -/
def State.bufLen (s : State) : Target → Word
  | .keybuf => s.keyLen
  | .data => s.len

/-- `G`: the 4-byte groups a byte-layout command works on (R66, R87). -/
def State.groups (s : State) (t : Target) : Nat := (s.bufLen t).toNat / 4

/-- `N`: the words of the block (R66). -/
def State.blockWords (s : State) : Nat := s.len.toNat / 4

/-! ### The key words (R13, R101) -/

/-- `K[i]` for the 2-bit index the selector gives (R101). -/
def KeyFile.get (k : KeyFile) (i : BitVec 2) : Word :=
  if i = 0#2 then k.k0 else if i = 1#2 then k.k1 else if i = 2#2 then k.k2 else k.k3

/-- K[0] | K[1] | K[2] | K[3], which the source never lets be 0 (R33). -/
def KeyFile.orAll (k : KeyFile) : Word := k.k0 ||| k.k1 ||| k.k2 ||| k.k3

/-! ### The map of the register window (R37) -/

/-- What a slot of the window is (R37). -/
inductive Slot where
  | id
  | ctrl
  | status
  | cmd
  | len
  | outLen
  | keyLen
  /-- word `i` of KEYBUF or DATA -/
  | buf (t : Target) (i : Nat)
  | reserved
  deriving DecidableEq, Repr

/-- R37: the slot at word index `widx`. -/
def slotAt (widx : Nat) : Slot :=
  if widx = 0 then .id
  else if widx = 1 then .ctrl
  else if widx = 2 then .status
  else if widx = 3 then .cmd
  else if widx = 4 then .len
  else if widx = 5 then .outLen
  else if widx = 6 then .keyLen
  else if 8 ≤ widx ∧ widx ≤ 11 then .buf .keybuf (widx - 8)
  else if 64 ≤ widx ∧ widx ≤ 115 then .buf .data (widx - 64)
  else .reserved

/-- The byte offset of CMD (R37). -/
def cmdOffset : Nat := 0x00C

end Sys2Proof.Machine
end

