-- ==== Sys2Proof/Machine/Flags.lean ====
section
/-! DEFINITION. STATUS, CTRL, the error codes and the interrupt output (spec/10_state.md R21–R27; spec/60_exceptions.md R124,
R134). The block has no other flag (R34): carries of the mixer are dropped (R105). -/

namespace Sys2Proof.Machine

/-- The named errors of R124. -/
inductive ErrorName where
  | invalidKeyLength
  | zeroKey
  | invalidDataLength
  | lengthMismatch
  | invalidLength
  | noKey
  | illegalCommand
  deriving DecidableEq, Repr

/-- The STATUS.ERR code of an error (R124). -/
def errorCode : ErrorName → BitVec 4
  | .invalidKeyLength => 1#4
  | .zeroKey => 2#4
  | .invalidDataLength => 3#4
  | .lengthMismatch => 4#4
  | .invalidLength => 5#4
  | .noKey => 6#4
  | .illegalCommand => 7#4

/-- STATUS.BUSY: 1 exactly while the phase is Busy (R23). -/
def State.busy (s : State) : Bool :=
  match s.phase with
  | .idle => false
  | .busy _ => true

/-- The interrupt output (R134). -/
def State.irq (s : State) : Bool := s.irqEn && s.done

/-- The word a host reads from CTRL (R21, R48). -/
def State.ctrlWord (s : State) : Word := 0#31 ++ BitVec.ofBool s.irqEn

/-- The word a host reads from STATUS (R22, R48). -/
def State.statusWord (s : State) : Word :=
  0#20 ++ s.err ++ 0#4 ++ BitVec.ofBool s.ovr ++ BitVec.ofBool s.keyValid ++ BitVec.ofBool s.done ++ BitVec.ofBool s.busy

/-- A host write to STATUS: DONE and OVR are cleared by a 1 in their bit, and nothing else changes (R22, R49). -/
def State.clearStatus (s : State) (v : Word) : State :=
  { s with done := s.done && !v.getLsbD 1, ovr := s.ovr && !v.getLsbD 3 }

end Sys2Proof.Machine
end

