-- ==== Sys2Proof/Machine/Ops.lean ====
section
/-! DEFINITION. The shared operations of the command cycle (spec/40_command_cycle.md R74–R77; spec/60_exceptions.md R125).

`State.raise` is the block's whole form of taking an exception (R123: "Trap entry" means exactly R125). There is no return
from one, and nothing to restore (R136). -/

namespace Sys2Proof.Machine

/-- R125: the effect of `raise E()`: STATUS.ERR and STATUS.DONE, and nothing else. -/
def State.raise (s : State) (e : ErrorName) : State := { s with err := errorCode e, done := true }

/-- R75: the acceptance of a command. BUSY follows the phase (R23). -/
def State.accept (s : State) (i : Instr) : State := { s with phase := .busy i, done := false, err := 0#4 }

/-- R76: how a completion ends. ERR is not written. -/
def State.finish (s : State) : State := { s with phase := .idle, done := true }

/-- What the validation of a command answers (R74). -/
inductive Verdict where
  | ok
  /-- `raise E()` -/
  | reject (e : ErrorName)
  /-- the validation itself reads an unwritten word (R29) -/
  | stop (f : Fault)
  deriving DecidableEq, Repr

/-- R74: the issue of a decoded command whose validation answered `v`. -/
def issue (i : Instr) (v : Verdict) (s : State) : Result :=
  match v with
  | .ok => .next (s.accept i)
  | .reject e => .next (s.raise e)
  | .stop f => .fault f

/-- R76: the completion of a command whose effect answered `r`. -/
def complete (r : Result) : Result :=
  match r with
  | .next s => .next s.finish
  | .fault f => .fault f
  | .refused e => .refused e

/-- The two steps of a command's life: its issue while the core is idle (R74), its completion while the core is busy with it
(R76). `step` takes the second only for the command in the phase (log entry 7). -/
def commandCycle (i : Instr) (validate : State → Verdict) (effect : State → Result) (s : State) : Result :=
  match s.phase with
  | .idle => issue i (validate s) s
  | .busy _ => complete (effect s)

/-- R77: what a host write does to CMD, a length register or a buffer: dropped with OVR while busy, `k` while idle. -/
def unlessBusy (s : State) (k : State → Result) : Result :=
  match s.phase with
  | .idle => k s
  | .busy _ => .next { s with ovr := true }

/-- R29: an effect on words 0 to n-1 of a buffer, which faults where one of them is unwritten. -/
def onWords (t : Target) (n : Nat) (effect : List Word → State → State) (s : State) : Result :=
  match s.words t n with
  | none => .fault .unwrittenRead
  | some ws => .next (effect ws s)

end Sys2Proof.Machine
end

