-- ==== Sys2Proof/Machine/Adapter.lean ====
section
/-! DEFINITION. The endian normalizer: REVW, REVB and REVA (spec/41_endian_adapter.md R87–R93). -/

namespace Sys2Proof.Machine

/-- R88, `validate_adapter(tgt)`. -/
def validateAdapter (t : Target) (s : State) : Verdict :=
  if (s.bufLen t).toNat < 4 ∨ (s.bufLen t).toNat % 4 ≠ 0 ∨ bufCap t < (s.bufLen t).toNat then .reject .invalidLength
  else .ok

/-- A byte-layout effect: `layout` on words 0 to G-1 of the buffer, the other words as they are (R87). -/
def adapterEffect (layout : List Word → List Word) (t : Target) (s : State) : Result :=
  onWords t (s.groups t) (fun ws s => s.setWords t (layout ws)) s

/-- R89: the words in reverse order. -/
def reverseWordOrder (ws : List Word) : List Word := ws.reverse

/-- R90: the bytes of every word in reverse. -/
def reverseBytesPerWord (ws : List Word) : List Word := ws.map bswap32

/-- R91: every byte in reverse, end to end. -/
def reverseWhole (ws : List Word) : List Word := ws.reverse.map bswap32

/-- REVW (R89). -/
def execRevw (t : Target) (s : State) : Result :=
  commandCycle (.revw t) (validateAdapter t) (adapterEffect reverseWordOrder t) s

/-- REVB (R90). -/
def execRevb (t : Target) (s : State) : Result :=
  commandCycle (.revb t) (validateAdapter t) (adapterEffect reverseBytesPerWord t) s

/-- REVA (R91). -/
def execReva (t : Target) (s : State) : Result :=
  commandCycle (.reva t) (validateAdapter t) (adapterEffect reverseWhole t) s

end Sys2Proof.Machine
end

