-- ==== Sys2Proof/Machine/Mixer.lean ====
section
/-! DEFINITION. The round mixer MX and the scalars around it (spec/43_round_mixer.md R97–R105). -/

namespace Sys2Proof.Machine

/-- R98: the round count of a block of `n` words. -/
def rounds (n : Nat) : Nat := 6 + 52 / n

/-- R100: the round index `e = (sum >> 2) & 3`. -/
def roundIndex (sum : Word) : BitVec 2 := (sum >>> 2).setWidth 2

/-- R101: the key-word selector `(p & 3) XOR e`. -/
def ksel (p : Nat) (e : BitVec 2) : BitVec 2 := BitVec.ofNat 2 p ^^^ e

/-- R102: MX, read as `(A + B) XOR (C + D)`. -/
def mx (y z sum k : Word) : Word :=
  (((z >>> 5) ^^^ (y <<< 2)) + ((y >>> 3) ^^^ (z <<< 4))) ^^^ ((sum ^^^ y) + (k ^^^ z))

end Sys2Proof.Machine
end

