-- ==== Sys2Proof/Machine/Cipher.lean ====
section
/-! DEFINITION. The encryptor and the decryptor: ENC and DEC (spec/44_encryptor.md R111; spec/45_decryptor.md R117;
spec/60_exceptions.md R127).

The sequencers are written as the pseudocode of R111 and R117, carrying the datapath registers of R31 beside the working
vector. `p` holds the position last updated and `q` counts the rounds done (log entry 6). -/

namespace Sys2Proof.Machine

/-- The core inside a command: the datapath registers and the working vector `V[0..N-1]`. -/
abbrev Work := Datapath × List Word

/-- R111 steps 2c and 2d: the encryption update of position `p`, `last` being N-1. -/
def encUpdate (k : KeyFile) (last : Nat) (c : Work) (p : Nat) : Work :=
  let y := c.2.getD (if p = last then 0 else p + 1) 0#32
  let w := c.2.getD p 0#32 + mx y c.1.z c.1.sum (k.get (ksel p c.1.e))
  ({ c.1 with y := y, z := w, p := BitVec.ofNat 6 p }, c.2.set p w)

/-- The opening of a round whose sum is `sum` (R111 steps 2a and 2b, R117): e is taken from it and held for the round
(R100), and the round is counted. -/
def openRound (sum : Word) (c : Work) : Work := ({ c.1 with sum := sum, e := roundIndex sum, q := c.1.q + 1#5 }, c.2)

/-- The end of a decryption round, which leaves `sum` for the next one (R117). -/
def closeRound (sum : Word) (c : Work) : Work := ({ c.1 with sum := sum }, c.2)

/-- R111: one encryption round: DELTA is added to the sum, then positions 0 to N-1. -/
def encRound (k : KeyFile) (n : Nat) (c : Work) : Work :=
  (List.range n).foldl (encUpdate k (n - 1)) (openRound (c.1.sum + Config.delta) c)

/-- R111: `r` encryption rounds. -/
def encRounds (k : KeyFile) (n : Nat) : Nat → Work → Work
  | 0, c => c
  | r + 1, c => encRounds k n r (encRound k n c)

/-- R111: the encryption of a working vector, from `sum = 0` and `z = V[N-1]`. -/
def encBlock (k : KeyFile) (d : Datapath) (v : List Word) : Work :=
  encRounds k v.length (rounds v.length) ({ d with sum := 0#32, z := v.getD (v.length - 1) 0#32, q := 0#5 }, v)

/-- R117: the decryption update of position `p`, `last` being N-1. -/
def decUpdate (k : KeyFile) (last : Nat) (c : Work) (p : Nat) : Work :=
  let z := c.2.getD (if p = 0 then last else p - 1) 0#32
  let w := c.2.getD p 0#32 - mx c.1.y z c.1.sum (k.get (ksel p c.1.e))
  ({ c.1 with y := w, z := z, p := BitVec.ofNat 6 p }, c.2.set p w)

/-- R117: one decryption round: positions N-1 down to 0, then DELTA is subtracted from the sum. -/
def decRound (k : KeyFile) (n : Nat) (c : Work) : Work :=
  closeRound (c.1.sum - Config.delta) ((List.range n).reverse.foldl (decUpdate k (n - 1)) (openRound c.1.sum c))

/-- R117: `r` decryption rounds. -/
def decRounds (k : KeyFile) (n : Nat) : Nat → Work → Work
  | 0, c => c
  | r + 1, c => decRounds k n r (decRound k n c)

/-- R117: the decryption of a working vector, from `sum = rounds * DELTA` and `y = V[0]`. -/
def decBlock (k : KeyFile) (d : Datapath) (v : List Word) : Work :=
  decRounds k v.length (rounds v.length)
    ({ d with sum := BitVec.ofNat 32 (rounds v.length) * Config.delta, y := v.getD 0 0#32, q := 0#5 }, v)

/-- R127, `validate_cipher()`: LEN is compared as a whole 32-bit value. -/
def validateCipher (s : State) : Verdict :=
  if s.len.toNat < Config.lMin ∨ Config.lMax < s.len.toNat ∨ s.len.toNat % 4 ≠ 0 then .reject .invalidDataLength
  else if s.outLen ≠ s.len then .reject .lengthMismatch
  else if s.keyValid = false then .reject .noKey
  else .ok

/-- A block transform in place on V[0..N-1] (R111, R117, R113, R120). -/
def cipherEffect (block : KeyFile → Datapath → List Word → Work) (s : State) : Result :=
  onWords .data s.blockWords
    (fun v s => { s with dp := (block s.key s.dp v).1, mem := writeWords s.mem (bufBase .data) (block s.key s.dp v).2 }) s

/-- ENC (R111). -/
def execEnc (s : State) : Result := commandCycle .enc validateCipher (cipherEffect encBlock) s

/-- DEC (R117). -/
def execDec (s : State) : Result := commandCycle .dec validateCipher (cipherEffect decBlock) s

end Sys2Proof.Machine
end

