-- ==== Sys2Proof/Machine/KeyConstructor.lean ====
section
/-! DEFINITION. The key constructor: KEYSET (spec/42_key_constructor.md R94–R96). -/

namespace Sys2Proof.Machine

/-- The logical OR of key words (R94). -/
def orWords (ws : List Word) : Word := ws.foldr (fun w acc => w ||| acc) 0#32

/-- R94, `validate_keyset()`: the length first, all 32 bits of it, then the zero test, which reads KB[0..3]. -/
def validateKeyset (s : State) : Verdict :=
  if s.keyLen ≠ BitVec.ofNat 32 Config.keyBytes then .reject .invalidKeyLength
  else
    match s.words .keybuf Config.kbuf with
    | none => .stop .unwrittenRead
    | some ws => if orWords ws = 0#32 then .reject .zeroKey else .ok

/-- Four words as the key register file (R94, R95). -/
def keyOfWords (ws : List Word) : KeyFile := ⟨ws.getD 0 0#32, ws.getD 1 0#32, ws.getD 2 0#32, ws.getD 3 0#32⟩

/-- R94, `keyset_effect()`. -/
def keysetEffect (s : State) : Result :=
  onWords .keybuf Config.kbuf (fun ws s => { s with key := keyOfWords ws, keyValid := true }) s

/-- KEYSET (R94). -/
def execKeyset (s : State) : Result := commandCycle .keyset validateKeyset keysetEffect s

end Sys2Proof.Machine
end

