-- ==== Sys2Proof/Machine/Dispatch.lean ====
section
/-! DEFINITION. The dispatch of a command to its meaning (spec/40_command_cycle.md R74, R76): one arm per constructor. -/

namespace Sys2Proof.Machine

def exec (i : Instr) (s : State) : Host.Outcome State Fault Refusal :=
  match i with
  | .keyset => Sys2Proof.Machine.execKeyset s
  | .enc => Sys2Proof.Machine.execEnc s
  | .dec => Sys2Proof.Machine.execDec s
  | .revw t => Sys2Proof.Machine.execRevw t s
  | .revb t => Sys2Proof.Machine.execRevb t s
  | .reva t => Sys2Proof.Machine.execReva t s

end Sys2Proof.Machine
end

