-- ==== Sys2Proof/Machine/HostPort.lean ====
section
/-! DEFINITION. The events of the block: host reads and writes, the core's completion step, reset (spec/20_memory.md R48, R49;
spec/40_command_cycle.md R73–R78; spec/70_reset_and_hazards.md R143). -/

namespace Sys2Proof.Machine

/-- A host read that returns `v` and changes no state (R48). -/
def State.returning (s : State) (v : Word) : State := { s with readData := some v }

/-- A host read of a buffer word (R48): while busy a free value, a fresh one each time; while idle the word, or a fault where
its written-mark is clear (R29).

DESIGN CHOICE, unsafe when two runs are compared (log entry 5): which free value a read while busy returns depends on the
count of such reads alone, so never on K, DATA or KEYBUF. R48 leaves the value unconstrained, and an implementation may be
in the middle of its transform. -/
def readBuffer (s : State) (t : Target) (i : Nat) : Result :=
  match s.phase with
  | .busy _ => .next { s.returning (Config.freeWord s.draws) with draws := s.draws + 1 }
  | .idle =>
    match s.word t i with
    | none => .fault .unwrittenRead
    | some w => .next (s.returning w)

/-- R48: the host read of slot `widx`. -/
def hostRead (widx : Nat) (s : State) : Result :=
  match slotAt widx with
  | .id => .next (s.returning Config.idValue)
  | .ctrl => .next (s.returning s.ctrlWord)
  | .status => .next (s.returning s.statusWord)
  | .cmd => .next (s.returning 0#32)
  | .len => .next (s.returning s.len)
  | .outLen => .next (s.returning s.outLen)
  | .keyLen => .next (s.returning s.keyLen)
  | .buf t i => readBuffer s t i
  | .reserved => .next (s.returning 0#32)

/-- R74: the write of `c` to CMD while idle. An Illegal word raises `IllegalCommand` before any other check (R129). -/
def issueWord (c : Word) (s : State) : Result :=
  match decode c with
  | .command i => exec i s
  | .illegal _ => .next (s.raise .illegalCommand)

/-- R49: the host write of `v` to slot `widx`. -/
def hostWrite (widx : Nat) (v : Word) (s : State) : Result :=
  match slotAt widx with
  | .id => .next s
  | .ctrl => .next { s with irqEn := v.getLsbD 0 }
  | .status => .next (s.clearStatus v)
  | .cmd => unlessBusy s (issueWord v)
  | .len => unlessBusy s fun s => .next { s with len := v }
  | .outLen => unlessBusy s fun s => .next { s with outLen := v }
  | .keyLen => unlessBusy s fun s => .next { s with keyLen := v }
  | .buf t i => unlessBusy s fun s => .next { s with mem := writeWord s.mem (wordAddr t i) v }
  | .reserved => .next s

/-- R76: the core's step. It is enabled exactly while busy (R73); while idle there is nothing to complete and nothing
changes (log entry 1). -/
def coreStep (s : State) : Result :=
  match s.phase with
  | .idle => .next s
  | .busy i => exec i s

/-- R143, R144: the reset of the block. The events still to come and the count of drawn values are the model's own and
stay. -/
def resetBlock (s : State) : State := { State.reset with pending := s.pending, draws := s.draws }

/-- One event (R52). A host access that is no single word access of the window is refused (R40). -/
def perform (e : Event) (s : State) : Result :=
  match e with
  | .read off size => if wordAccess off size then hostRead (off / 4) s else .refused .notAWordAccess
  | .write off size v => if wordAccess off size then hostWrite (off / 4) v s else .refused .notAWordAccess
  | .completion => coreStep s
  | .reset => .next (resetBlock s)

/-- The event that comes next. When the host has nothing more to do it is the core's step, so that a busy command is
completed in the end (R78, weak fairness). -/
def State.nextEvent (s : State) : Event := s.pending.headD .completion

/-- The state in which the next event is performed: it has left the list, and no read value stands on the port. -/
def State.advance (s : State) : State := { s with pending := s.pending.tail, readData := none }

/-- `s` with the host write of `w` to CMD as its next event and the core idle, so that the write is decoded (R74) and not
dropped (R77). -/
def State.withCommandWrite (s : State) (w : Word) : State :=
  { s with phase := .idle, pending := .write cmdOffset 4 w :: s.pending }

end Sys2Proof.Machine
end

