-- ==== Sys2Proof/Machine/Step.lean ====
section
/-! DEFINITION. One step of the machine: the next event is performed (spec/20_memory.md R52; spec/40_command_cycle.md R73). -/

namespace Sys2Proof.Machine

/-- One step: the next event of the block's total order (R52). -/
def step (s : State) : Host.Outcome State Fault Refusal := perform s.nextEvent s.advance

/-- `s` with the instruction whose bits are `w` placed where the next step takes its next instruction from: the block
fetches nothing (R28), so that is the host's write of the word to CMD. -/
def State.withFetchWord (s : State) (nbits w : Nat) : State :=
  s.withCommandWrite (BitVec.ofNat 32 (w % 2 ^ nbits))

end Sys2Proof.Machine
end

