-- ==== Sys2Proof/Safety.lean ====
section
/-! DEFINITION. The terms in which claims are stated: when a validation passes, the invariant of the machine, the states a run
reaches, a safe step, and the microsequences of R112 and R118 as chains of word updates. -/

namespace Sys2Proof.Machine

/-! ### When a command is accepted -/

/-- LEN passes the range check of R59 and R127. -/
abbrev State.legalBlock (s : State) : Prop := 12 ≤ s.len.toNat ∧ s.len.toNat ≤ 208 ∧ s.len.toNat % 4 = 0

/-- The length of a byte-layout command passes the check of R88. -/
abbrev State.legalLayout (s : State) (t : Target) : Prop :=
  4 ≤ (s.bufLen t).toNat ∧ (s.bufLen t).toNat % 4 = 0 ∧ (s.bufLen t).toNat ≤ bufCap t

/-- The validation of a command passes (R74): every check of R94, R127 or R88, in the words of those rules. -/
def Accepts (s : State) : Instr → Prop
  | .keyset => s.keyLen = 16#32 ∧ ∃ w0 w1 w2 w3, s.word .keybuf 0 = some w0 ∧ s.word .keybuf 1 = some w1 ∧
      s.word .keybuf 2 = some w2 ∧ s.word .keybuf 3 = some w3 ∧ w0 ||| w1 ||| w2 ||| w3 ≠ 0#32
  | .enc => s.legalBlock ∧ s.outLen = s.len ∧ s.keyValid = true
  | .dec => s.legalBlock ∧ s.outLen = s.len ∧ s.keyValid = true
  | .revw t => s.legalLayout t
  | .revb t => s.legalLayout t
  | .reva t => s.legalLayout t

/-- The buffer a command's completion works on (R65). -/
def commandBuffer : Instr → Target
  | .keyset => .keybuf
  | .enc => .data
  | .dec => .data
  | .revw t => t
  | .revb t => t
  | .reva t => t

/-- How many words of that buffer its completion reads (R65). -/
def State.operandWords (s : State) : Instr → Nat
  | .keyset => 4
  | .enc => s.len.toNat / 4
  | .dec => s.len.toNat / 4
  | .revw t => (s.bufLen t).toNat / 4
  | .revb t => (s.bufLen t).toNat / 4
  | .reva t => (s.bufLen t).toNat / 4

/-- Every word the completion of a command reads has been written (R29, R65). -/
abbrev State.operandsWritten (s : State) (i : Instr) : Prop :=
  ∀ n, n < s.operandWords i → s.written (commandBuffer i) n = true

/-- Two states agree on what R65 lists as read by the completion of a command: the number of words it works on (N or G, from
LEN or KEY_LEN as the command uses it), those words of its buffer, and K for ENC and DEC only. -/
def State.sameOperands (s t : State) (i : Instr) : Prop :=
  t.operandWords i = s.operandWords i ∧
    (∀ n, n < s.operandWords i → t.word (commandBuffer i) n = s.word (commandBuffer i) n) ∧
    (i = .enc ∨ i = .dec → t.key = s.key)

/-! ### The tables of the spec, written out -/

/-- R63: the command words, and what each decodes to. -/
def commandTable : List (Word × Instr) :=
  [(0x00000001#32, .keyset), (0x00000002#32, .enc), (0x00000003#32, .dec), (0x00000004#32, .revw .keybuf),
    (0x00000014#32, .revw .data), (0x00000005#32, .revb .keybuf), (0x00000015#32, .revb .data),
    (0x00000006#32, .reva .keybuf), (0x00000016#32, .reva .data)]

/-- R67: the three kinds of illegal command word. -/
abbrev illegalWord (c : Word) : Prop :=
  (c.extractLsb' 0 4 = 0x0#4 ∨ 7 ≤ (c.extractLsb' 0 4).toNat) ∨
    ((c.extractLsb' 0 4 = 0x1#4 ∨ c.extractLsb' 0 4 = 0x2#4 ∨ c.extractLsb' 0 4 = 0x3#4) ∧ c.getLsbD 4 = true) ∨
    c.extractLsb' 5 27 ≠ 0#27

/-- R37, R38: the byte offsets of the reserved slots. -/
abbrev reservedOffset (off : Nat) : Prop :=
  off % 4 = 0 ∧ (off = 0x01C ∨ (0x030 ≤ off ∧ off ≤ 0x0FC) ∨ (0x1D0 ≤ off ∧ off ≤ 0x1FC))

/-- R37, R77: the byte offsets whose writes are dropped while busy: CMD, LEN, OUT_LEN, KEY_LEN, KEYBUF, DATA. -/
abbrev lockedOffset (off : Nat) : Prop :=
  off % 4 = 0 ∧ ((0x00C ≤ off ∧ off ≤ 0x018) ∨ (0x020 ≤ off ∧ off ≤ 0x02C) ∨ (0x100 ≤ off ∧ off ≤ 0x1CC))

/-- R22, R48: STATUS as a number: ERR in 11:8, OVR in 3, KEY_VALID in 2, DONE in 1, BUSY in 0, and zeros. -/
def State.statusNumber (s : State) : Nat :=
  256 * s.err.toNat + 8 * s.ovr.toNat + 4 * s.keyValid.toNat + 2 * s.done.toNat + s.busy.toNat

/-- A read of `off` answers `v` and changes nothing else (R48): the block's state is as it was, the access is done. -/
abbrev ReadsAs (s : State) (off : Nat) (v : Word) : Prop :=
  s.nextEvent = .read off 4 → step s = .next { s.advance with readData := some v }

/-! ### The invariant -/

/-- An address of the window that belongs to KEYBUF or DATA (R37). -/
abbrev inBuffer (a : Nat) : Prop := (0x020 ≤ a ∧ a < 0x030) ∨ (0x100 ≤ a ∧ a < 0x1D0)

/-- What every step keeps and reset has: the byte store is canonical, holds bytes of the buffers only and whole words only;
STATUS.ERR names an error or none (R124); a valid key is not zero (R33); and a command in progress was accepted, its inputs
are as they were then (R79), DONE and ERR are 0 (R75). -/
structure State.Inv (s : State) : Prop where
  canonical : Memory.wf s.mem
  inside : ∀ c ∈ s.mem, inBuffer c.1
  whole : ∀ c ∈ s.mem, (readWord s.mem (c.1 - c.1 % 4)).isSome = true
  errNamed : s.err.toNat < 8
  keyNonzero : s.keyValid = true → s.key.orAll ≠ 0#32
  accepted : ∀ i, s.phase = .busy i → Accepts s i ∧ s.done = false ∧ s.err = 0#4

/-! ### Runs -/

/-- The states a run reaches: the block starts in its reset state with any events to come (R52). -/
inductive Reachable : State → Prop
  | start (es : List Event) : Reachable { State.reset with pending := es }
  | next {s t : State} (h : Reachable s) (hs : step s = .next t) : Reachable t

/-- An event of a run without resets whose host accesses are single word accesses (R40): what the host may do while it waits. -/
abbrev plainEvent : Event → Prop
  | .read off size => wordAccess off size = true
  | .write off size _ => wordAccess off size = true
  | .completion => True
  | .reset => False

/-- A safe step: it answers a next state. -/
def State.Safe (s : State) : Prop := ∃ t, step s = .next t

/-! ### The microsequences as chains of word updates (R99, R112, R118) -/

/-- `sum_r = r * DELTA` (R99). -/
def chainSum (r : Nat) : Word := BitVec.ofNat 32 r * 0x9E3779B9#32

/-- MX at position `p` of a working vector, its neighbours read where they stand now: `y = V[(p+1) mod N]` and
`z = V[(p-1) mod N]` (R112, R118). -/
def chainMx (k : KeyFile) (sum : Word) (v : List Word) (p : Nat) : Word :=
  mx (v.getD ((p + 1) % v.length) 0#32) (v.getD ((p + v.length - 1) % v.length) 0#32) sum
    (k.get (ksel p (roundIndex sum)))

/-- R112 point 3: one encryption update. -/
def encChainUpdate (k : KeyFile) (sum : Word) (v : List Word) (p : Nat) : List Word :=
  v.set p (v.getD p 0#32 + chainMx k sum v p)

/-- R118 point 3: one decryption update. -/
def decChainUpdate (k : KeyFile) (sum : Word) (v : List Word) (p : Nat) : List Word :=
  v.set p (v.getD p 0#32 - chainMx k sum v p)

/-- R112: rounds 1 to `rounds`, and in each the positions 0 to N-1. -/
def encChain (k : KeyFile) (v : List Word) : List Word :=
  (List.range (6 + 52 / v.length)).foldl
    (fun w r => (List.range v.length).foldl (encChainUpdate k (chainSum (r + 1))) w) v

/-- R118: the sums of rounds `rounds` down to 1, and in each the positions N-1 down to 0. -/
def decChain (k : KeyFile) (v : List Word) : List Word :=
  (List.range (6 + 52 / v.length)).reverse.foldl
    (fun w r => (List.range v.length).reverse.foldl (decChainUpdate k (chainSum (r + 1))) w) v

end Sys2Proof.Machine
end

