-- ==== Sys2Proof/Certificates/Slice0/Obligations.lean ====
section
/-! DEFINITION. The statements for the provers: the numbered rules of spec/ that say what a command or the block does. -/

open Sys2Proof Sys2Proof.Machine

/-! ### Encoding (spec/30_encoding.md) -/

/-- R61–R64: the decoder reads a command from a word exactly where the word is that command's encoding, with either TGT. -/
def Obligations.DecodeAndEncodeAgree : Prop :=
  ∀ (c : Word) (i : Instr), decode c = .command i ↔ c = encode i

/-- R63, R64: exactly the nine words of the opcode map decode to a command, each to the row's, and every other word is
Illegal. -/
def Obligations.ExactlyNineWordsDecode : Prop :=
  ∀ c : Word, (∀ i, decode c = .command i ↔ (c, i) ∈ commandTable) ∧
    ((∀ p ∈ commandTable, c ≠ p.1) → ∃ why, decode c = .illegal why)

/-- R63: words written out bit by bit decode to the commands they stand for. -/
def Obligations.WrittenWordsDecode : Prop :=
  decodeTableWord 32 0b00000000000000000000000000000001 = some .keyset ∧
  decodeTableWord 32 0b00000000000000000000000000000010 = some .enc ∧
  decodeTableWord 32 0b00000000000000000000000000000011 = some .dec ∧
  decodeTableWord 32 0b00000000000000000000000000000100 = some (.revw .keybuf) ∧
  decodeTableWord 32 0b00000000000000000000000000010101 = some (.revb .data) ∧
  decodeTableWord 32 0b00000000000000000000000000010110 = some (.reva .data)

/-- R67, R129: the illegal words are those of the three kinds, and writing one to CMD while idle raises IllegalCommand
(code 7) before any other check. -/
def Obligations.IllegalWordsRaiseIllegalCommand : Prop :=
  ∀ c : Word, (illegalWord c ↔ ∀ i, decode c ≠ .command i) ∧
    ∀ s : State, s.phase = .idle → s.nextEvent = .write 0x00C 4 c → illegalWord c →
      step s = .next { s.advance with err := 7#4, done := true }

/-! ### What a step runs (spec/40_command_cycle.md) -/

/-- R74, R76: the write of a command's word to CMD while idle runs that command's issue, and the core's step while busy runs
the completion of the command in the phase. Around it a step only takes the event and clears the port (the model's own fields, log entries 1 and 2). -/
def Obligations.StepRunsTheDecodedCommand : Prop :=
  (∀ (s : State) (c : Word) (i : Instr), s.phase = .idle → s.nextEvent = .write 0x00C 4 c → decode c = .command i →
    step s = exec i s.advance) ∧
  ∀ (s : State) (i : Instr), s.phase = .busy i → s.nextEvent = .completion → step s = exec i s.advance

/-- R28, R74: a command's word placed by withFetchWord is what the very next step runs, from every state. That the placing
sets the core idle is the model's choice (log entry 8). -/
def Obligations.PlacedWordRunsNext : Prop :=
  ∀ (s : State) (i : Instr),
    step (s.withFetchWord 32 (encode i).toNat) = exec i { s with phase := .idle, readData := none }

/-- R142, R145: an idle block to which nothing happens keeps all its state. The step it then takes is the model's choice (log
entry 1). -/
def Obligations.IdleBlockWaits : Prop :=
  ∀ s : State, s.phase = .idle → s.pending = [] → step s = .next { s with readData := none }

/-! ### Issue: acceptance and rejection (spec/40_command_cycle.md R75; spec/60_exceptions.md) -/

/-- R75: acceptance sets the phase (and so BUSY) and clears DONE and ERR, and nothing else changes. -/
def Obligations.AcceptanceOnlyMarksTheCommand : Prop :=
  ∀ (s : State) (i : Instr), s.phase = .idle → Accepts s i →
    exec i s = .next { s with phase := .busy i, done := false, err := 0#4 } ∧
      State.busy { s with phase := .busy i, done := false, err := 0#4 } = true

/-- R126, R94: KEYSET raises InvalidKeyLength, then ZeroKey; the zero test faults where a key word is unwritten (R29). -/
def Obligations.KeysetChecksLengthThenZero : Prop :=
  ∀ s : State, s.phase = .idle →
    (s.keyLen ≠ 16#32 → exec .keyset s = .next { s with err := 1#4, done := true }) ∧
    (s.keyLen = 16#32 → (∃ n, n < 4 ∧ s.written .keybuf n = false) → exec .keyset s = .fault .unwrittenRead) ∧
    ∀ w0 w1 w2 w3, s.keyLen = 16#32 → s.word .keybuf 0 = some w0 → s.word .keybuf 1 = some w1 →
      s.word .keybuf 2 = some w2 → s.word .keybuf 3 = some w3 → w0 ||| w1 ||| w2 ||| w3 = 0#32 →
      exec .keyset s = .next { s with err := 2#4, done := true }

/-- R127: ENC and DEC raise InvalidDataLength, then LengthMismatch, then NoKey. -/
def Obligations.CipherChecksInOrder : Prop :=
  ∀ (s : State) (i : Instr), i = .enc ∨ i = .dec → s.phase = .idle →
    ((s.len.toNat < 12 ∨ 208 < s.len.toNat ∨ s.len.toNat % 4 ≠ 0) →
      exec i s = .next { s with err := 3#4, done := true }) ∧
    (12 ≤ s.len.toNat → s.len.toNat ≤ 208 → s.len.toNat % 4 = 0 →
      (s.outLen ≠ s.len → exec i s = .next { s with err := 4#4, done := true }) ∧
      (s.outLen = s.len → s.keyValid = false → exec i s = .next { s with err := 6#4, done := true }))

/-- R88, R128: REVW, REVB and REVA raise InvalidLength where the length is below 4, no multiple of 4 or above the buffer's
capacity, 16 for KEYBUF and 208 for DATA. -/
def Obligations.AdapterChecksLength : Prop :=
  ∀ (s : State) (t : Target) (i : Instr), i = .revw t ∨ i = .revb t ∨ i = .reva t → s.phase = .idle →
    ((s.bufLen t).toNat < 4 ∨ (s.bufLen t).toNat % 4 ≠ 0 ∨
      (t = .keybuf ∧ 16 < s.keyLen.toNat) ∨ (t = .data ∧ 208 < s.len.toNat)) →
    exec i s = .next { s with err := 5#4, done := true }

/-- R125: a CMD write that ends with the block idle was rejected: ERR holds the code of a named error, DONE is set, and
nothing else has changed. -/
def Obligations.RejectionIsPrecise : Prop :=
  ∀ (s t : State) (c : Word), s.phase = .idle → s.nextEvent = .write 0x00C 4 c → step s = .next t → t.phase = .idle →
    ∃ code : BitVec 4, 1 ≤ code.toNat ∧ code.toNat ≤ 7 ∧ t = { s.advance with err := code, done := true } ∧
      t.busy = false

/-! ### Completion: the effects (spec/41_endian_adapter.md to spec/45_decryptor.md) -/

/-- R94: KEYSET copies the four words of KEYBUF into K and sets KEY_VALID; KEYBUF and everything else stay. The datapath
registers (R31), whose values are the model's choice (log entry 6), are left out. -/
def Obligations.KeysetLoadsTheKey : Prop :=
  ∀ (s : State) (w0 w1 w2 w3 : Word), s.phase = .busy .keyset → s.word .keybuf 0 = some w0 →
    s.word .keybuf 1 = some w1 → s.word .keybuf 2 = some w2 → s.word .keybuf 3 = some w3 →
    ∃ t, exec .keyset s = .next t ∧
      t = { s with key := ⟨w0, w1, w2, w3⟩, keyValid := true, dp := t.dp, phase := .idle, done := true }

/-- R95, R43: the key words are the big-endian words of the sixteen key bytes. -/
def Obligations.KeyWordsAreBigEndian : Prop :=
  ∀ s t : State, s.phase = .busy .keyset → exec .keyset s = .next t → ∀ n, n < 4 →
    ∃ b0 b1 b2 b3 : Byte, s.byte .keybuf (4 * n) = some b0 ∧ s.byte .keybuf (4 * n + 1) = some b1 ∧
      s.byte .keybuf (4 * n + 2) = some b2 ∧ s.byte .keybuf (4 * n + 3) = some b3 ∧
      (t.key.get (BitVec.ofNat 2 n)).toNat =
        b0.toNat * 2 ^ 24 + b1.toNat * 2 ^ 16 + b2.toNat * 2 ^ 8 + b3.toNat

/-- R112: the effect of ENC on V[0..N-1] is the chain of rounds × N word updates, each reading its neighbours as they stand. -/
def Obligations.EncIsItsChainOfUpdates : Prop :=
  ∀ (s : State) (v : List Word), s.phase = .busy .enc → s.legalBlock → s.words .data (s.len.toNat / 4) = some v →
    ∃ t, exec .enc s = .next t ∧ t.phase = .idle ∧ t.done = true ∧
      t.words .data (s.len.toNat / 4) = some (encChain s.key v)

/-- R118: the effect of DEC on V[0..N-1] is the chain of rounds × N word updates in the reverse order. -/
def Obligations.DecIsItsChainOfUpdates : Prop :=
  ∀ (s : State) (v : List Word), s.phase = .busy .dec → s.legalBlock → s.words .data (s.len.toNat / 4) = some v →
    ∃ t, exec .dec s = .next t ∧ t.phase = .idle ∧ t.done = true ∧
      t.words .data (s.len.toNat / 4) = some (decChain s.key v)

/-- R113, R120: ENC and DEC write V[0..N-1], their written-marks and the STATUS bits of the command cycle, and nothing else.
The datapath registers (R31), whose values are the model's choice (log entry 6), are left out. -/
def Obligations.CipherWritesOnlyTheBlock : Prop :=
  ∀ (s t : State) (i : Instr), i = .enc ∨ i = .dec → s.phase = .busy i → exec i s = .next t →
    t = { s with mem := t.mem, dp := t.dp, phase := .idle, done := true } ∧
    (∀ a, a < wordAddr .data 0 ∨ wordAddr .data s.blockWords ≤ a → readByte t.mem a = readByte s.mem a) ∧
    ∀ n, n < s.blockWords → t.written .data n = true

/-- R89: REVW reverses the order of the words of its buffer, byte order inside them kept, and writes nothing else. The
datapath registers (R31), whose values are the model's choice (log entry 6), are left out. -/
def Obligations.RevwReversesWordOrder : Prop :=
  ∀ (s : State) (b : Target), s.phase = .busy (.revw b) → s.operandsWritten (.revw b) →
    ∃ t, exec (.revw b) s = .next t ∧ t = { s with mem := t.mem, dp := t.dp, phase := .idle, done := true } ∧
      (∀ g, g < s.groups b → t.word b g = s.word b (s.groups b - 1 - g)) ∧
      (∀ g j, g < s.groups b → j < 4 → t.byte b (4 * g + j) = s.byte b (4 * (s.groups b - 1 - g) + j)) ∧
      ∀ a, a < wordAddr b 0 ∨ wordAddr b (s.groups b) ≤ a → readByte t.mem a = readByte s.mem a

/-- R90: REVB reverses the bytes of every word of its buffer, the order of the words kept, and writes nothing else. The
datapath registers (R31), whose values are the model's choice (log entry 6), are left out. -/
def Obligations.RevbReversesBytesPerWord : Prop :=
  ∀ (s : State) (b : Target), s.phase = .busy (.revb b) → s.operandsWritten (.revb b) →
    ∃ t, exec (.revb b) s = .next t ∧ t = { s with mem := t.mem, dp := t.dp, phase := .idle, done := true } ∧
      (∀ g j, g < s.groups b → j < 4 → t.byte b (4 * g + j) = s.byte b (4 * g + (3 - j))) ∧
      ∀ a, a < wordAddr b 0 ∨ wordAddr b (s.groups b) ≤ a → readByte t.mem a = readByte s.mem a

/-- R91: REVA reverses every byte of its buffer end to end, and writes nothing else. The
datapath registers (R31), whose values are the model's choice (log entry 6), are left out. -/
def Obligations.RevaReversesWhole : Prop :=
  ∀ (s : State) (b : Target), s.phase = .busy (.reva b) → s.operandsWritten (.reva b) →
    ∃ t, exec (.reva b) s = .next t ∧ t = { s with mem := t.mem, dp := t.dp, phase := .idle, done := true } ∧
      (∀ k, k < 4 * s.groups b → t.byte b k = s.byte b (4 * s.groups b - 1 - k)) ∧
      ∀ a, a < wordAddr b 0 ∨ wordAddr b (s.groups b) ≤ a → readByte t.mem a = readByte s.mem a

/-- R92: completing a byte-layout command, issuing it again and completing it again restores every byte. -/
def Obligations.AdapterIsAnInvolution : Prop :=
  ∀ (s : State) (b : Target) (i : Instr), i = .revw b ∨ i = .revb b ∨ i = .reva b → s.phase = .busy i →
    s.legalLayout b → s.operandsWritten i →
    ∃ t u v, exec i s = .next t ∧ exec i t = .next u ∧ u.phase = .busy i ∧ exec i u = .next v ∧
      ∀ a, readByte v.mem a = readByte s.mem a

/-- R93: REVA is REVW followed by REVB and REVB followed by REVW, byte for byte, and none of them changes K or KEY_VALID. -/
def Obligations.RevaIsBothCompositions : Prop :=
  ∀ (s : State) (b : Target), s.legalLayout b → s.operandsWritten (.reva b) →
    ∃ a wb bw, exec (.reva b) { s with phase := .busy (.reva b) } = .next a ∧
      (∃ t u, exec (.revw b) { s with phase := .busy (.revw b) } = .next t ∧ t.key = s.key ∧
        t.keyValid = s.keyValid ∧ exec (.revb b) t = .next u ∧ exec (.revb b) u = .next wb) ∧
      (∃ t u, exec (.revb b) { s with phase := .busy (.revb b) } = .next t ∧ t.key = s.key ∧
        t.keyValid = s.keyValid ∧ exec (.revw b) t = .next u ∧ exec (.revw b) u = .next bw) ∧
      (∀ x, readByte wb.mem x = readByte a.mem x ∧ readByte bw.mem x = readByte a.mem x) ∧
      a.key = s.key ∧ a.keyValid = s.keyValid ∧ wb.key = s.key ∧ wb.keyValid = s.keyValid ∧ bw.key = s.key ∧
      bw.keyValid = s.keyValid

/-- R119: DEC after ENC with the same K and LEN restores the block, and so does ENC after DEC: every byte of the buffers is
as before. -/
def Obligations.DecAndEncUndoEachOther : Prop :=
  ∀ (s : State) (i j : Instr), (i = .enc ∧ j = .dec) ∨ (i = .dec ∧ j = .enc) → s.phase = .busy i → Accepts s i →
    s.operandsWritten i →
    ∃ t u v, exec i s = .next t ∧ exec j t = .next u ∧ u.phase = .busy j ∧ exec j u = .next v ∧ v.key = s.key ∧
      ∀ a, readByte v.mem a = readByte s.mem a

/-- R110, R115: what an earlier command left in the datapath registers changes nothing of a later ENC or DEC. That the
registers end alike too is the model's choice (log entry 6). -/
def Obligations.NoMixerStateSurvives : Prop :=
  ∀ (s : State) (i : Instr) (d : Datapath), i = .enc ∨ i = .dec → s.phase = .busy i → s.legalBlock →
    exec i { s with dp := d } = exec i s

/-! ### The round mixer (spec/43_round_mixer.md) -/

/-- R98, R99: the round count of every legal block, and the sum its decryption starts from. -/
def Obligations.RoundCountsAndInitialSums : Prop :=
  ∀ n, n ∈ List.range 53 → 3 ≤ n →
    (n, rounds n, BitVec.ofNat 32 (rounds n) * Config.delta) ∈
      [(3, 23, 0x36FBEF9F#32), (4, 19, 0xBE1E08BB#32), (5, 16, 0xE3779B90#32), (6, 14, 0xA708A81E#32),
        (7, 13, 0x08D12E65#32), (8, 12, 0x6A99B4AC#32), (9, 11, 0xCC623AF3#32), (10, 11, 0xCC623AF3#32)] ∨
    (11 ≤ n ∧ n ≤ 13 ∧ rounds n = 10 ∧ BitVec.ofNat 32 (rounds n) * Config.delta = 0x2E2AC13A#32) ∨
    (14 ≤ n ∧ n ≤ 17 ∧ rounds n = 9 ∧ BitVec.ofNat 32 (rounds n) * Config.delta = 0x8FF34781#32) ∨
    (18 ≤ n ∧ n ≤ 26 ∧ rounds n = 8 ∧ BitVec.ofNat 32 (rounds n) * Config.delta = 0xF1BBCDC8#32) ∨
    (27 ≤ n ∧ rounds n = 7 ∧ BitVec.ofNat 32 (rounds n) * Config.delta = 0x5384540F#32)

/-- R99: r encryption rounds add r * DELTA to the sum, and r decryption rounds subtract it. -/
def Obligations.RoundSumsAreMultiplesOfDelta : Prop :=
  ∀ (k : KeyFile) (n r : Nat) (c : Work),
    (encRounds k n r c).1.sum = c.1.sum + BitVec.ofNat 32 r * 0x9E3779B9#32 ∧
    (decRounds k n r c).1.sum = c.1.sum - BitVec.ofNat 32 r * 0x9E3779B9#32

/-- R100, R109: the round indices of rounds 1 to 23. -/
def Obligations.RoundIndicesFollowTheTable : Prop :=
  (List.range 23).map (fun r => roundIndex (BitVec.ofNat 32 (r + 1) * Config.delta)) =
    [2#2, 0#2, 2#2, 1#2, 3#2, 1#2, 3#2, 2#2, 0#2, 2#2, 0#2, 3#2, 1#2, 3#2, 1#2, 0#2, 2#2, 0#2, 2#2, 1#2, 3#2, 1#2, 3#2]

/-- R102, R106: the exact identities of MX, and its worked values in spec/95_test_vectors.md. -/
def Obligations.MxIdentities : Prop :=
  (∀ s k : Word, mx 0#32 0#32 s k = s + k) ∧
  mx 0xFFFFFFFF#32 0xFFFFFFFF#32 0xFFFFFFFF#32 0xFFFFFFFF#32 = 0xD8000012#32 ∧
  mx 0x80000000#32 0x80000000#32 0x9E3779B9#32 0x12345678#32 = 0xA46BD031#32 ∧
  mx 0x01234567#32 0x89ABCDEF#32 0x3C6EF372#32 0xFEDCBA98#32 = 0x2F9C2FC3#32

/-! ### The host port (spec/20_memory.md) -/

/-- R48: what a host read of each slot returns; a read changes no state of the block. While busy the read of a buffer word
returns some value, which one is open (the model counts such reads, log entry 5). -/
def Obligations.HostReadReturnsTheSlot : Prop :=
  ∀ s : State,
    ReadsAs s 0x000 0x58585445#32 ∧ ReadsAs s 0x004 (if s.irqEn then 1#32 else 0#32) ∧
    ReadsAs s 0x008 (BitVec.ofNat 32 s.statusNumber) ∧ ReadsAs s 0x00C 0#32 ∧ ReadsAs s 0x010 s.len ∧
    ReadsAs s 0x014 s.outLen ∧ ReadsAs s 0x018 s.keyLen ∧ (∀ off, reservedOffset off → ReadsAs s off 0#32) ∧
    ∀ (b : Target) (n : Nat), n < bufWords b → s.nextEvent = .read (wordAddr b n) 4 →
      (∀ w, s.phase = .idle → s.word b n = some w → step s = .next { s.advance with readData := some w }) ∧
      (s.phase = .idle → s.written b n = false → step s = .fault .unwrittenRead) ∧
      (∀ i, s.phase = .busy i → ∃ w k, step s = .next { s.advance with readData := some w, draws := k })

/-- R49: what a host write to each slot but CMD changes while the core is idle. -/
def Obligations.IdleWriteStores : Prop :=
  ∀ (s : State) (off : Nat) (v : Word), s.phase = .idle → s.nextEvent = .write off 4 v →
    (off = 0x000 ∨ reservedOffset off → step s = .next s.advance) ∧
    (off = 0x004 → step s = .next { s.advance with irqEn := v.getLsbD 0 }) ∧
    (off = 0x008 → step s = .next { s.advance with done := s.done && !v.getLsbD 1, ovr := s.ovr && !v.getLsbD 3 }) ∧
    (off = 0x010 → step s = .next { s.advance with len := v }) ∧
    (off = 0x014 → step s = .next { s.advance with outLen := v }) ∧
    (off = 0x018 → step s = .next { s.advance with keyLen := v }) ∧
    ∀ (b : Target) (n : Nat), n < bufWords b → off = wordAddr b n →
      ∃ t, step s = .next t ∧ t = { s.advance with mem := t.mem } ∧ t.word b n = some v ∧
        ∀ a, a < wordAddr b n ∨ wordAddr b n + 4 ≤ a → readByte t.mem a = readByte s.mem a

/-- R77: while busy a write to CMD, LEN, OUT_LEN, KEY_LEN, KEYBUF or DATA is dropped and sets OVR; CTRL and STATUS writes are
performed; ID and reserved slots ignore theirs. -/
def Obligations.BusyLocksOutWrites : Prop :=
  ∀ (s : State) (i : Instr) (off : Nat) (v : Word), s.phase = .busy i → s.nextEvent = .write off 4 v →
    (lockedOffset off → step s = .next { s.advance with ovr := true }) ∧
    (off = 0x004 → step s = .next { s.advance with irqEn := v.getLsbD 0 }) ∧
    (off = 0x008 → step s = .next { s.advance with done := s.done && !v.getLsbD 1, ovr := s.ovr && !v.getLsbD 3 }) ∧
    (off = 0x000 ∨ reservedOffset off → step s = .next s.advance)

/-- R38: a reserved slot reads 0 and ignores writes, even while busy, and the reserved bits of CTRL and STATUS do too. -/
def Obligations.ReservedReadsZeroIgnoresWrites : Prop :=
  (∀ (s : State) (off : Nat), reservedOffset off → ReadsAs s off 0#32 ∧
    ∀ v, s.nextEvent = .write off 4 v → step s = .next s.advance) ∧
  (∀ (s : State) (n : Nat), (1 ≤ n → s.ctrlWord.getLsbD n = false) ∧
    ((4 ≤ n ∧ n ≤ 7) ∨ 12 ≤ n → s.statusWord.getLsbD n = false)) ∧
  ∀ (s : State) (v w : Word), (v.getLsbD 0 = w.getLsbD 0 → hostWrite 1 v s = hostWrite 1 w s) ∧
    (v.getLsbD 1 = w.getLsbD 1 → v.getLsbD 3 = w.getLsbD 3 → hostWrite 2 v s = hostWrite 2 w s)

/-- R44: a written word of a buffer is its four bytes in big-endian order, bits 31-8j : 24-8j being byte j of it. -/
def Obligations.ByteLanesAreBigEndian : Prop :=
  ∀ (s : State) (b : Target) (n : Nat) (w : Word), s.word b n = some w ↔
    ∀ j, j < 4 → s.byte b (4 * n + j) = some (BitVec.ofNat 8 (w.toNat / 2 ^ (24 - 8 * j)))

/-- R40: a step is refused exactly where its event is a host access that is no single word access to a widx in 0 to 127. -/
def Obligations.RefusesExactlyOtherAccesses : Prop :=
  ∀ (s : State) (r : Refusal), step s = .refused r ↔ r = .notAWordAccess ∧
    ∃ off size, (s.nextEvent = .read off size ∨ ∃ v, s.nextEvent = .write off size v) ∧
      ¬(size = 4 ∧ off % 4 = 0 ∧ off < 512)

/-- R29, R74, R76: a step faults exactly where a host read while idle, KEYSET's zero test or a completion reads a buffer word
that has not been written since reset. -/
def Obligations.FaultsExactlyOnUnwrittenReads : Prop :=
  ∀ (s : State) (f : Fault), step s = .fault f ↔ f = .unwrittenRead ∧
    ((s.phase = .idle ∧ ∃ b n, n < bufWords b ∧ s.nextEvent = .read (wordAddr b n) 4 ∧ s.written b n = false) ∨
      (s.phase = .idle ∧ s.nextEvent = .write 0x00C 4 0x00000001#32 ∧ s.keyLen = 16#32 ∧
        ∃ n, n < 4 ∧ s.written .keybuf n = false) ∨
      ∃ i, s.phase = .busy i ∧ s.nextEvent = .completion ∧ ¬s.operandsWritten i)

/-! ### The key (spec/10_state.md) -/

/-- R13, R25: only the completion of KEYSET writes K and sets KEY_VALID, and only reset clears them. -/
def Obligations.KeyChangesOnlyByKeysetOrReset : Prop :=
  ∀ s t : State, step s = .next t →
    (t.key ≠ s.key → s.nextEvent = .reset ∨ (s.nextEvent = .completion ∧ s.phase = .busy .keyset)) ∧
    (t.keyValid ≠ s.keyValid → (s.nextEvent = .reset ∧ t.keyValid = false) ∨
      (s.nextEvent = .completion ∧ s.phase = .busy .keyset ∧ t.keyValid = true))

/-- R14, R46: no host address reads K: with another key the same read answers the same value and leaves the same state. For
the reads of DATA and KEYBUF while busy, whose value R48 leaves unconstrained, this is the model's choice (log entry 5): its
free value depends on the count of such reads alone. -/
def Obligations.HostReadsDoNotRevealTheKey : Prop :=
  ∀ (s : State) (k : KeyFile) (off size : Nat), s.nextEvent = .read off size →
    (∀ t, step s = .next t → step { s with key := k } = .next { t with key := k }) ∧
    (∀ f, step s = .fault f → step { s with key := k } = .fault f) ∧
    ∀ r, step s = .refused r → step { s with key := k } = .refused r

/-- R33: in every state a run reaches, a valid key is not zero. -/
def Obligations.ValidKeyIsNeverZero : Prop :=
  ∀ s : State, Reachable s → s.keyValid = true → s.key.k0 ||| s.key.k1 ||| s.key.k2 ||| s.key.k3 ≠ 0#32

/-! ### The busy window and the end of a command (spec/40_command_cycle.md) -/

/-- R79: while busy, nothing but the completion or a reset writes what a completion reads, and the command stays. -/
def Obligations.InputsAreStableWhileBusy : Prop :=
  ∀ (s t : State) (i : Instr), s.phase = .busy i → s.nextEvent ≠ .completion → s.nextEvent ≠ .reset →
    step s = .next t →
    t.phase = .busy i ∧ t.key = s.key ∧ t.keyValid = s.keyValid ∧ t.mem = s.mem ∧ t.len = s.len ∧
      t.outLen = s.outLen ∧ t.keyLen = s.keyLen

/-- R86, R131: the status an accepted command leaves when it completes. -/
def Obligations.CompletionLeavesStatusInFixedForm : Prop :=
  ∀ (s t : State) (i : Instr), s.Inv → s.phase = .busy i → s.nextEvent = .completion → step s = .next t →
    t.busy = false ∧ t.done = true ∧ t.err = 0#4 ∧ t.keyValid = (decide (i = .keyset) || s.keyValid) ∧ t.ovr = s.ovr

/-- R65, R83, R85: what a completion writes depends only on the operands R65 gives its command. Two busy states that agree on
these, whatever else they hold (the other buffer, the words beyond, the other registers, K for any command but ENC and DEC),
both complete or neither does, with the same words written to the buffer, and for KEYSET the same K and KEY_VALID. -/
def Obligations.EffectsDependOnlyOnTheirOperands : Prop :=
  ∀ (s t u : State) (i : Instr), s.phase = .busy i → t.phase = .busy i → s.sameOperands t i → exec i s = .next u →
    ∃ v, exec i t = .next v ∧
      (∀ n, n < s.operandWords i → v.word (commandBuffer i) n = u.word (commandBuffer i) n) ∧
      (i = .keyset → v.key = u.key ∧ v.keyValid = u.keyValid)

/-- R26: a write dropped while busy sets OVR, a host write of 1 to bit 3 of STATUS clears it, a reset clears it, and no step
changes it otherwise. -/
def Obligations.OverrunChangesOnlyAsStated : Prop :=
  (∀ (s : State) (i : Instr) (off : Nat) (v : Word), s.phase = .busy i → s.nextEvent = .write off 4 v →
    lockedOffset off → ∃ t, step s = .next t ∧ t.ovr = true) ∧
  (∀ (s : State) (v : Word), s.nextEvent = .write 0x008 4 v → v.getLsbD 3 = true →
    ∃ t, step s = .next t ∧ t.ovr = false) ∧
  (∀ s : State, s.nextEvent = .reset → ∃ t, step s = .next t ∧ t.ovr = false) ∧
  ∀ s t : State, step s = .next t → t.ovr ≠ s.ovr →
    (t.ovr = true ∧ ∃ i off v, s.phase = .busy i ∧ s.nextEvent = .write off 4 v ∧ lockedOffset off) ∨
    (t.ovr = false ∧ (s.nextEvent = .reset ∨ ∃ v, s.nextEvent = .write 0x008 4 v ∧ v.getLsbD 3 = true))

/-- R132, R27: an error code stays until the next command is accepted or rejected, or a reset: no other event writes ERR. -/
def Obligations.ErrorStaysUntilTheNextCommand : Prop :=
  ∀ s t : State, step s = .next t → t.err ≠ s.err →
    s.nextEvent = .reset ∨ (s.phase = .idle ∧ ∃ c, s.nextEvent = .write 0x00C 4 c)

/-- R78: a command that stays busy is completed, however many host accesses come first, unless a reset does. That
a run with no more events goes on with the core's step is the model's choice (log entry 1). -/
def Obligations.BusyCommandCompletes : Prop :=
  ∀ (s : State) (i : Instr), s.phase = .busy i → s.operandsWritten i → (∀ e ∈ s.pending, plainEvent e) →
    ∃ (k : Nat) (t : State), k ≤ s.pending.length + 1 ∧ Host.Core.run Sys2Proof.core k s = .next t ∧
      t.phase = .idle ∧ t.done = true

/-! ### Interrupt and reset (spec/60_exceptions.md R134, R135; spec/70_reset_and_hazards.md R143) -/

/-- R134, R135: irq is CTRL.IRQ_EN and STATUS.DONE as the host reads them; writing 1 to DONE, masking, an acceptance and a
reset clear it, and unmasking shows DONE. -/
def Obligations.InterruptFollowsEnableAndDone : Prop :=
  (∀ s : State, s.irq = (s.ctrlWord.getLsbD 0 && s.statusWord.getLsbD 1)) ∧
  (∀ (s t : State) (v : Word), s.nextEvent = .write 0x008 4 v → v.getLsbD 1 = true → step s = .next t →
    t.irq = false) ∧
  (∀ (s t : State) (v : Word), s.nextEvent = .write 0x004 4 v → step s = .next t →
    t.irq = (v.getLsbD 0 && s.done) ∧ t.done = s.done) ∧
  (∀ (s t : State) (i : Instr), s.phase = .idle → Accepts s i → exec i s = .next t → t.irq = false) ∧
  ∀ s t : State, s.nextEvent = .reset → step s = .next t → t.irq = false

/-- R143, R144, R35: reset, at any time: the block is idle, STATUS, CTRL, the length registers and K are 0, every
written-mark is clear, and no command goes on. -/
def Obligations.ResetClearsTheBlock : Prop :=
  ∀ s : State, s.nextEvent = .reset → ∃ t, step s = .next t ∧ t.phase = .idle ∧ t.statusWord = 0#32 ∧
    t.ctrlWord = 0#32 ∧ t.len = 0#32 ∧ t.outLen = 0#32 ∧ t.keyLen = 0#32 ∧ t.key = ⟨0#32, 0#32, 0#32, 0#32⟩ ∧
    t.keyValid = false ∧ t.irq = false ∧ ∀ b n, t.written b n = false

/-- R35: the state after reset satisfies the invariant, with any events to come. -/
def Obligations.ResetSatisfiesTheInvariant : Prop :=
  ∀ es : List Event, State.Inv { State.reset with pending := es }

/-- Every step keeps the invariant (the form of the byte store is the model's choice, log entry 9): the byte store canonical, inside the buffers and in whole words, no reserved error code
(R124), no zero key (R33), a running command still acceptable with DONE and ERR clear (R75, R79). -/
def Obligations.StepKeepsTheInvariant : Prop :=
  ∀ s t : State, s.Inv → step s = .next t → t.Inv
end

