-- ==== Sys2Proof/Laws/Memory.lean ====
section
/-! SUPPORT. The laws of the byte store and of the words built on it (spec/20_memory.md R43, R44, R52): read after write, the
frame of a write, the canonical form kept, and two canonical memories that read alike are equal. -/

namespace Sys2Proof.Machine

/-! ### Bytes -/

theorem readByte_writeByte_same (m : Memory) (a : Nat) (b : Byte) : readByte (writeByte m a b) a = some b := by
  induction m with
  | nil => simp [writeByte, readByte]
  | cons c m ih =>
    simp only [writeByte]
    split
    · simp [readByte]
    · split
      · simp [readByte]
      · rename_i _ hne
        simp [readByte, Ne.symm hne, ih]

theorem readByte_writeByte_other (m : Memory) {a x : Nat} (b : Byte) (h : x ≠ a) :
    readByte (writeByte m a b) x = readByte m x := by
  induction m with
  | nil => simp [writeByte, readByte, h.symm]
  | cons c m ih =>
    simp only [writeByte]
    split
    · simp [readByte, h.symm]
    · split
      · rename_i _ he
        subst he
        simp [readByte, h.symm]
      · simp [readByte, ih]

theorem readByte_writeByte (m : Memory) (a x : Nat) (b : Byte) :
    readByte (writeByte m a b) x = if x = a then some b else readByte m x := by
  split
  · subst x
    exact readByte_writeByte_same m a b
  · exact readByte_writeByte_other m b ‹_›

theorem mem_writeByte {m : Memory} {a : Nat} {b : Byte} {c : Host.Cell} (h : c ∈ writeByte m a b) :
    c = (a, b) ∨ c ∈ m := by
  induction m with
  | nil => simpa [writeByte] using h
  | cons d m ih =>
    simp only [writeByte] at h
    split at h
    · simpa using h
    · split at h
      · rcases List.mem_cons.1 h with h | h
        · exact .inl h
        · exact .inr (List.mem_cons_of_mem _ h)
      · rcases List.mem_cons.1 h with h | h
        · exact .inr (h ▸ List.mem_cons_self)
        · exact (ih h).imp id (List.mem_cons_of_mem _)

theorem writeByte_wf {m : Memory} (a : Nat) (b : Byte) (h : Memory.wf m) : Memory.wf (writeByte m a b) := by
  induction m with
  | nil => simp [writeByte, Memory.wf]
  | cons d m ih =>
    obtain ⟨hd, hm⟩ := List.pairwise_cons.1 h
    simp only [writeByte]
    split
    · rename_i hlt
      refine List.pairwise_cons.2 ⟨fun c hc => ?_, h⟩
      rcases List.mem_cons.1 hc with rfl | hc
      · exact hlt
      · exact lt_trans hlt (hd c hc)
    · split
      · rename_i _ he
        subst he
        exact List.pairwise_cons.2 ⟨hd, hm⟩
      · rename_i hlt hne
        refine List.pairwise_cons.2 ⟨fun c hc => ?_, ih hm⟩
        rcases mem_writeByte hc with rfl | hc
        · simp only
          omega
        · exact hd c hc

theorem readByte_eq_none_of_lt {m : Memory} {a : Nat} (h : ∀ c ∈ m, a < c.1) : readByte m a = none := by
  induction m with
  | nil => rfl
  | cons c m ih =>
    have hc := h c List.mem_cons_self
    simp only [readByte, if_neg (show ¬c.1 = a by omega)]
    exact ih fun d hd => h d (List.mem_cons_of_mem _ hd)

theorem readByte_isSome_of_mem {m : Memory} {c : Host.Cell} (h : c ∈ m) : (readByte m c.1).isSome := by
  induction m with
  | nil => cases h
  | cons d m ih =>
    simp only [readByte]
    split
    · rfl
    · rcases List.mem_cons.1 h with rfl | h
      · contradiction
      · exact ih h

theorem exists_mem_of_readByte {m : Memory} {a : Nat} {b : Byte} (h : readByte m a = some b) : (a, b) ∈ m := by
  induction m with
  | nil => cases h
  | cons d m ih =>
    simp only [readByte] at h
    split at h
    · rename_i he
      cases h
      subst he
      exact List.mem_cons_self
    · exact List.mem_cons_of_mem _ (ih h)

/-- Two canonical memories that read alike at every address are the same data. -/
theorem Memory.ext_of_wf {m n : Memory} (hm : Memory.wf m) (hn : Memory.wf n)
    (h : ∀ a, readByte m a = readByte n a) : m = n := by
  induction m generalizing n with
  | nil =>
    cases n with
    | nil => rfl
    | cons d n => simpa [readByte] using h d.1
  | cons c m ih =>
    obtain ⟨hc, hm'⟩ := List.pairwise_cons.1 hm
    cases n with
    | nil => simpa [readByte] using h c.1
    | cons d n =>
      obtain ⟨hd, hn'⟩ := List.pairwise_cons.1 hn
      have hcd : c.1 = d.1 := by
        rcases lt_trichotomy c.1 d.1 with hl | he | hl
        · have := h c.1
          rw [readByte_eq_none_of_lt (m := d :: n)] at this
          · simp [readByte] at this
          · intro e he
            rcases List.mem_cons.1 he with rfl | he
            · exact hl
            · exact lt_trans hl (hd e he)
        · exact he
        · have := h d.1
          rw [readByte_eq_none_of_lt (m := c :: m)] at this
          · simp [readByte] at this
          · intro e he
            rcases List.mem_cons.1 he with rfl | he
            · exact hl
            · exact lt_trans hl (hc e he)
      have hb : c.2 = d.2 := by simpa [readByte, hcd] using h c.1
      have : c = d := Prod.ext hcd hb
      subst this
      congr 1
      refine ih hm' hn' fun a => ?_
      by_cases ha : c.1 = a
      · rw [readByte_eq_none_of_lt (fun e he => ha ▸ hc e he), readByte_eq_none_of_lt (fun e he => ha ▸ hd e he)]
      · simpa [readByte, ha] using h a

/-! ### Lanes and words -/

/-- R43 by bits: which byte a bit of an assembled word comes from. -/
theorem getLsbD_be32 (b0 b1 b2 b3 : Byte) (i : Nat) :
    (be32 b0 b1 b2 b3).getLsbD i =
      if i < 8 then b3.getLsbD i else if i < 16 then b2.getLsbD (i - 8)
      else if i < 24 then b1.getLsbD (i - 16) else b0.getLsbD (i - 24) := by
  have h : (be32 b0 b1 b2 b3).getLsbD i =
      (((b0 ++ b1 : BitVec (8 + 8)) ++ b2 : BitVec (8 + 8 + 8)) ++ b3 : BitVec (8 + 8 + 8 + 8)).getLsbD i := rfl
  rw [h, BitVec.getLsbD_append, BitVec.getLsbD_append, BitVec.getLsbD_append]
  by_cases h1 : i < 8
  · simp [h1]
  by_cases h2 : i < 16
  · simp [h1, h2, show i - 8 < 8 by omega]
  by_cases h3 : i < 24
  · simp [h1, h2, h3, show ¬i - 8 < 8 by omega, show i - 16 < 8 by omega, show i - 8 - 8 = i - 16 by omega]
  · simp [h1, h2, h3, show ¬i - 8 < 8 by omega, show ¬i - 8 - 8 < 8 by omega, show i - 8 - 8 - 8 = i - 24 by omega]

theorem getLsbD_lane (w : Word) (j i : Nat) : (lane w j).getLsbD i = (decide (i < 8) && w.getLsbD (24 - 8 * j + i)) := by
  simp [lane, BitVec.getLsbD_extractLsb']

/-- R43: a word is assembled from its own lanes. -/
theorem be32_lanes (w : Word) : be32 (lane w 0) (lane w 1) (lane w 2) (lane w 3) = w := by
  apply BitVec.eq_of_getLsbD_eq
  intro i hi
  simp only [getLsbD_be32, getLsbD_lane]
  split
  · simp [*]
  · split
    · simp [show i - 8 < 8 by omega, show 8 + (i - 8) = i by omega]
    · split
      · simp [show i - 16 < 8 by omega, show 16 + (i - 16) = i by omega]
      · simp [show i - 24 < 8 by omega, show 24 + (i - 24) = i by omega]

@[simp] theorem lane_be32_zero (b0 b1 b2 b3 : Byte) : lane (be32 b0 b1 b2 b3) 0 = b0 := by
  apply BitVec.eq_of_getLsbD_eq
  intro i hi
  rw [getLsbD_lane, getLsbD_be32, decide_eq_true hi, Bool.true_and]
  rw [if_neg (by omega), if_neg (by omega), if_neg (by omega)]
  congr 1
  omega

@[simp] theorem lane_be32_one (b0 b1 b2 b3 : Byte) : lane (be32 b0 b1 b2 b3) 1 = b1 := by
  apply BitVec.eq_of_getLsbD_eq
  intro i hi
  rw [getLsbD_lane, getLsbD_be32, decide_eq_true hi, Bool.true_and]
  rw [if_neg (by omega), if_neg (by omega), if_pos (by omega)]
  congr 1
  omega

@[simp] theorem lane_be32_two (b0 b1 b2 b3 : Byte) : lane (be32 b0 b1 b2 b3) 2 = b2 := by
  apply BitVec.eq_of_getLsbD_eq
  intro i hi
  rw [getLsbD_lane, getLsbD_be32, decide_eq_true hi, Bool.true_and]
  rw [if_neg (by omega), if_pos (by omega)]
  congr 1
  omega

@[simp] theorem lane_be32_three (b0 b1 b2 b3 : Byte) : lane (be32 b0 b1 b2 b3) 3 = b3 := by
  apply BitVec.eq_of_getLsbD_eq
  intro i hi
  rw [getLsbD_lane, getLsbD_be32, decide_eq_true hi, Bool.true_and]
  rw [if_pos (by omega)]
  congr 1
  omega

theorem bswap32_bswap32 (w : Word) : bswap32 (bswap32 w) = w := by
  simp [bswap32, be32_lanes]

/-- R90's byte view: lane `j` of a byte-reversed word is lane `3 - j`. -/
theorem lane_bswap32 (w : Word) {j : Nat} (h : j < 4) : lane (bswap32 w) j = lane w (3 - j) := by
  match j, h with
  | 0, _ => simp [bswap32]
  | 1, _ => simp [bswap32]
  | 2, _ => simp [bswap32]
  | 3, _ => simp [bswap32]

/-- The word at `a` is `w` exactly when its four bytes are `w`'s lanes. -/
theorem readWord_eq_some {m : Memory} {a : Nat} {w : Word} :
    readWord m a = some w ↔ readByte m a = some (lane w 0) ∧ readByte m (a + 1) = some (lane w 1) ∧
      readByte m (a + 2) = some (lane w 2) ∧ readByte m (a + 3) = some (lane w 3) := by
  constructor
  · intro h
    unfold readWord at h
    split at h
    · cases h
      simp [*]
    · cases h
  · rintro ⟨h0, h1, h2, h3⟩
    simp [readWord, h0, h1, h2, h3, be32_lanes]

/-- A word's written-mark is set exactly when its four bytes hold values. -/
theorem readWord_isSome {m : Memory} {a : Nat} :
    (readWord m a).isSome ↔ (readByte m a).isSome ∧ (readByte m (a + 1)).isSome ∧ (readByte m (a + 2)).isSome ∧
      (readByte m (a + 3)).isSome := by
  unfold readWord
  split
  · simp [*]
  · rename_i h
    constructor
    · simp
    · simp only [Option.isSome_iff_exists]
      rintro ⟨⟨b0, h0⟩, ⟨b1, h1⟩, ⟨b2, h2⟩, b3, h3⟩
      exact absurd h3 (h b0 b1 b2 b3 h0 h1 h2)

/-- A word read depends only on its four bytes. -/
theorem readWord_congr {m n : Memory} {a : Nat} (h : ∀ j, j < 4 → readByte m (a + j) = readByte n (a + j)) :
    readWord m a = readWord n a := by
  have h0 := h 0 (by omega)
  simp only [Nat.add_zero] at h0
  simp [readWord, h0, h 1 (by omega), h 2 (by omega), h 3 (by omega)]

/-- The bytes of a stored word, and the frame of the store. -/
theorem readByte_writeWord (m : Memory) (a x : Nat) (w : Word) :
    readByte (writeWord m a w) x = if a ≤ x ∧ x < a + 4 then some (lane w (x - a)) else readByte m x := by
  simp only [writeWord, readByte_writeByte]
  by_cases h3 : x = a + 3
  · subst h3; simp
  by_cases h2 : x = a + 2
  · subst h2; simp
  by_cases h1 : x = a + 1
  · subst h1; simp
  by_cases h0 : x = a
  · subst h0; simp
  · simp only [h0, h1, h2, h3, if_false]
    rw [if_neg (by omega)]

theorem readWord_writeWord_same (m : Memory) (a : Nat) (w : Word) : readWord (writeWord m a w) a = some w := by
  simp [readWord_eq_some, readByte_writeWord]

theorem readWord_writeWord_other (m : Memory) {a x : Nat} (w : Word) (h : x + 4 ≤ a ∨ a + 4 ≤ x) :
    readWord (writeWord m a w) x = readWord m x :=
  readWord_congr fun j hj => by rw [readByte_writeWord, if_neg (by omega)]

theorem writeWord_wf {m : Memory} (a : Nat) (w : Word) (h : Memory.wf m) : Memory.wf (writeWord m a w) :=
  writeByte_wf _ _ (writeByte_wf _ _ (writeByte_wf _ _ (writeByte_wf _ _ h)))

/-! ### Runs of words -/

theorem readWords_length {m : Memory} {n a : Nat} {ws : List Word} (h : readWords m a n = some ws) :
    ws.length = n := by
  induction n generalizing a ws with
  | zero => cases h; rfl
  | succ n ih =>
    simp only [readWords] at h
    split at h
    · rename_i hr
      cases h
      simp [ih hr]
    · cases h

/-- The words from `a` on are `ws` exactly when each is. -/
theorem readWords_eq_some {m : Memory} {a : Nat} {ws : List Word} :
    readWords m a ws.length = some ws ↔ ∀ i (h : i < ws.length), readWord m (a + 4 * i) = some ws[i] := by
  induction ws generalizing a with
  | nil => simp [readWords]
  | cons w ws ih =>
    constructor
    · intro h i hi
      simp only [List.length_cons, readWords] at h
      split at h
      · rename_i w' ws' h0 hr
        cases h
        cases i with
        | zero => simpa using h0
        | succ i =>
          have := ih.1 hr i (by simpa using hi)
          simpa [Nat.mul_add, Nat.add_assoc, Nat.add_comm 4] using this
      · cases h
    · intro h
      have h0 : readWord m a = some w := h 0 (by simp)
      have hr : readWords m (a + 4) ws.length = some ws := by
        refine ih.2 fun i hi => ?_
        have := h (i + 1) (by simpa using hi)
        simpa [Nat.mul_add, Nat.add_assoc, Nat.add_comm 4] using this
      simp [readWords, h0, hr]

theorem readWord_of_readWords {m : Memory} {n a : Nat} {ws : List Word} (h : readWords m a n = some ws) {i : Nat}
    (hi : i < n) : readWord m (a + 4 * i) = some (ws.getD i 0#32) := by
  have hl := readWords_length h
  subst hl
  rw [readWords_eq_some.1 h i hi, List.getD_eq_getElem _ _ hi]

/-- A run of words is read exactly when every word of it is written. -/
theorem readWords_isSome {m : Memory} {n a : Nat} :
    (readWords m a n).isSome ↔ ∀ i, i < n → (readWord m (a + 4 * i)).isSome := by
  induction n generalizing a with
  | zero => simp [readWords]
  | succ n ih =>
    have key : (readWords m a (n + 1)).isSome ↔ (readWord m a).isSome ∧ (readWords m (a + 4) n).isSome := by
      simp only [readWords]
      cases readWord m a <;> cases readWords m (a + 4) n <;> simp
    rw [key, ih]
    constructor
    · rintro ⟨h0, h⟩ i hi
      cases i with
      | zero => simpa using h0
      | succ i => simpa [Nat.mul_add, Nat.add_assoc, Nat.add_comm 4] using h i (by omega)
    · intro h
      refine ⟨by simpa using h 0 (by omega), fun i hi => ?_⟩
      simpa [Nat.mul_add, Nat.add_assoc, Nat.add_comm 4] using h (i + 1) (by omega)

/-- Memories that agree on each of some words agree on the run of them. -/
theorem readWords_congr {m m' : Memory} {n a : Nat}
    (h : ∀ i, i < n → readWord m' (a + 4 * i) = readWord m (a + 4 * i)) : readWords m' a n = readWords m a n := by
  induction n generalizing a with
  | zero => rfl
  | succ n ih =>
    have h0 : readWord m' a = readWord m a := h 0 (by omega)
    have hn : readWords m' (a + 4) n = readWords m (a + 4) n := ih fun i hi => by
      rw [show a + 4 + 4 * i = a + 4 * (i + 1) by omega]
      exact h (i + 1) (by omega)
    simp only [readWords, h0, hn]

/-- The bytes of a stored run of words, and the frame of the store. -/
theorem readByte_writeWords (ws : List Word) (m : Memory) (a x : Nat) :
    readByte (writeWords m a ws) x =
      if a ≤ x ∧ x < a + 4 * ws.length then some (lane (ws.getD ((x - a) / 4) 0#32) ((x - a) % 4))
      else readByte m x := by
  induction ws generalizing m a with
  | nil =>
    rw [if_neg (by simp only [List.length_nil]; omega)]
    rfl
  | cons w ws ih =>
    rw [writeWords, ih, readByte_writeWord]
    simp only [List.length_cons]
    by_cases h1 : a + 4 ≤ x ∧ x < a + 4 + 4 * ws.length
    · rw [if_pos h1, if_pos (by omega)]
      obtain ⟨k, rfl⟩ : ∃ k, x = a + 4 + k := ⟨x - (a + 4), by omega⟩
      rw [show a + 4 + k - (a + 4) = k by omega, show a + 4 + k - a = k + 4 by omega,
        show (k + 4) / 4 = k / 4 + 1 by omega, show (k + 4) % 4 = k % 4 by omega]
      simp
    · rw [if_neg h1]
      by_cases h2 : a ≤ x ∧ x < a + 4
      · rw [if_pos h2, if_pos (by omega), show (x - a) / 4 = 0 by omega, show (x - a) % 4 = x - a by omega]
        simp
      · rw [if_neg h2, if_neg (by omega)]

theorem readByte_writeWords_other {ws : List Word} {m : Memory} {a x : Nat} (h : x < a ∨ a + 4 * ws.length ≤ x) :
    readByte (writeWords m a ws) x = readByte m x := by
  rw [readByte_writeWords, if_neg (by omega)]

theorem readWord_writeWords_same (ws : List Word) (m : Memory) (a : Nat) {i : Nat} (h : i < ws.length) :
    readWord (writeWords m a ws) (a + 4 * i) = some (ws.getD i 0#32) := by
  rw [readWord_eq_some]
  refine ⟨?_, ?_, ?_, ?_⟩ <;> rw [readByte_writeWords, if_pos (by omega)] <;> congr 3 <;> omega

theorem readWord_writeWords_other {ws : List Word} {m : Memory} {a x : Nat} (h : x + 4 ≤ a ∨ a + 4 * ws.length ≤ x) :
    readWord (writeWords m a ws) x = readWord m x :=
  readWord_congr fun j hj => readByte_writeWords_other (by omega)

theorem readWords_writeWords_same (ws : List Word) (m : Memory) (a : Nat) :
    readWords (writeWords m a ws) a ws.length = some ws :=
  readWords_eq_some.2 fun i hi => by rw [readWord_writeWords_same _ _ _ hi, List.getD_eq_getElem _ _ hi]

theorem writeWords_wf (ws : List Word) {m : Memory} (a : Nat) (h : Memory.wf m) : Memory.wf (writeWords m a ws) := by
  induction ws generalizing m a with
  | nil => exact h
  | cons w ws ih => exact ih _ (writeWord_wf _ _ h)

/-- Storing the words that are already there changes no byte. -/
theorem readByte_writeWords_of_readWords {m : Memory} {a n : Nat} {ws : List Word} (h : readWords m a n = some ws)
    (x : Nat) : readByte (writeWords m a ws) x = readByte m x := by
  rw [readByte_writeWords]
  split
  · rename_i hx
    have hl := readWords_length h
    have hw := readWord_eq_some.1 (readWord_of_readWords h (i := (x - a) / 4) (by omega))
    have h4 : (x - a) % 4 = 0 ∨ (x - a) % 4 = 1 ∨ (x - a) % 4 = 2 ∨ (x - a) % 4 = 3 := by omega
    rcases h4 with h4 | h4 | h4 | h4
    · rw [h4, ← hw.1]; congr 1; omega
    · rw [h4, ← hw.2.1]; congr 1; omega
    · rw [h4, ← hw.2.2.1]; congr 1; omega
    · rw [h4, ← hw.2.2.2]; congr 1; omega
  · rfl

/-- The later of two stores to the same run of words is the one that stays. -/
theorem readByte_writeWords_writeWords {vs ws : List Word} (h : vs.length = ws.length) (m : Memory) (a x : Nat) :
    readByte (writeWords (writeWords m a vs) a ws) x = readByte (writeWords m a ws) x := by
  simp only [readByte_writeWords, h]
  split <;> rfl

end Sys2Proof.Machine
end

