-- ==== Sys2Proof/Laws/State.lean ====
section
/-! SUPPORT. What each named update of the state does to each field, once, so that no later proof unfolds a record update. -/

namespace Sys2Proof.Machine

/-! ### State.advance -/

@[simp] theorem advance_key (s : State) : s.advance.key = s.key := rfl
@[simp] theorem advance_keyValid (s : State) : s.advance.keyValid = s.keyValid := rfl
@[simp] theorem advance_mem (s : State) : s.advance.mem = s.mem := rfl
@[simp] theorem advance_len (s : State) : s.advance.len = s.len := rfl
@[simp] theorem advance_outLen (s : State) : s.advance.outLen = s.outLen := rfl
@[simp] theorem advance_keyLen (s : State) : s.advance.keyLen = s.keyLen := rfl
@[simp] theorem advance_irqEn (s : State) : s.advance.irqEn = s.irqEn := rfl
@[simp] theorem advance_done (s : State) : s.advance.done = s.done := rfl
@[simp] theorem advance_ovr (s : State) : s.advance.ovr = s.ovr := rfl
@[simp] theorem advance_err (s : State) : s.advance.err = s.err := rfl
@[simp] theorem advance_phase (s : State) : s.advance.phase = s.phase := rfl
@[simp] theorem advance_dp (s : State) : s.advance.dp = s.dp := rfl
@[simp] theorem advance_pending (s : State) : s.advance.pending = s.pending.tail := rfl
@[simp] theorem advance_readData (s : State) : s.advance.readData = none := rfl
@[simp] theorem advance_draws (s : State) : s.advance.draws = s.draws := rfl
@[simp] theorem advance_word (s : State) (t : Target) (n : Nat) : s.advance.word t n = s.word t n := rfl
@[simp] theorem advance_words (s : State) (t : Target) (n : Nat) : s.advance.words t n = s.words t n := rfl
@[simp] theorem advance_written (s : State) (t : Target) (n : Nat) : s.advance.written t n = s.written t n := rfl
@[simp] theorem advance_byte (s : State) (t : Target) (n : Nat) : s.advance.byte t n = s.byte t n := rfl
@[simp] theorem advance_bufLen (s : State) (t : Target) : s.advance.bufLen t = s.bufLen t := by cases t <;> rfl
@[simp] theorem advance_groups (s : State) (t : Target) : s.advance.groups t = s.groups t := by cases t <;> rfl
@[simp] theorem advance_blockWords (s : State) : s.advance.blockWords = s.blockWords := rfl

/-! ### State.raise -/

@[simp] theorem raise_key (s : State) (e : ErrorName) : (s.raise e).key = s.key := rfl
@[simp] theorem raise_keyValid (s : State) (e : ErrorName) : (s.raise e).keyValid = s.keyValid := rfl
@[simp] theorem raise_mem (s : State) (e : ErrorName) : (s.raise e).mem = s.mem := rfl
@[simp] theorem raise_len (s : State) (e : ErrorName) : (s.raise e).len = s.len := rfl
@[simp] theorem raise_outLen (s : State) (e : ErrorName) : (s.raise e).outLen = s.outLen := rfl
@[simp] theorem raise_keyLen (s : State) (e : ErrorName) : (s.raise e).keyLen = s.keyLen := rfl
@[simp] theorem raise_irqEn (s : State) (e : ErrorName) : (s.raise e).irqEn = s.irqEn := rfl
@[simp] theorem raise_done (s : State) (e : ErrorName) : (s.raise e).done = true := rfl
@[simp] theorem raise_ovr (s : State) (e : ErrorName) : (s.raise e).ovr = s.ovr := rfl
@[simp] theorem raise_err (s : State) (e : ErrorName) : (s.raise e).err = errorCode e := rfl
@[simp] theorem raise_phase (s : State) (e : ErrorName) : (s.raise e).phase = s.phase := rfl
@[simp] theorem raise_dp (s : State) (e : ErrorName) : (s.raise e).dp = s.dp := rfl
@[simp] theorem raise_pending (s : State) (e : ErrorName) : (s.raise e).pending = s.pending := rfl
@[simp] theorem raise_readData (s : State) (e : ErrorName) : (s.raise e).readData = s.readData := rfl
@[simp] theorem raise_draws (s : State) (e : ErrorName) : (s.raise e).draws = s.draws := rfl
@[simp] theorem raise_word (s : State) (e : ErrorName) (t : Target) (n : Nat) : (s.raise e).word t n = s.word t n := rfl
@[simp] theorem raise_words (s : State) (e : ErrorName) (t : Target) (n : Nat) : (s.raise e).words t n = s.words t n := rfl
@[simp] theorem raise_written (s : State) (e : ErrorName) (t : Target) (n : Nat) : (s.raise e).written t n = s.written t n := rfl
@[simp] theorem raise_byte (s : State) (e : ErrorName) (t : Target) (n : Nat) : (s.raise e).byte t n = s.byte t n := rfl
@[simp] theorem raise_bufLen (s : State) (e : ErrorName) (t : Target) : (s.raise e).bufLen t = s.bufLen t := by cases t <;> rfl
@[simp] theorem raise_groups (s : State) (e : ErrorName) (t : Target) : (s.raise e).groups t = s.groups t := by cases t <;> rfl
@[simp] theorem raise_blockWords (s : State) (e : ErrorName) : (s.raise e).blockWords = s.blockWords := rfl

/-! ### State.accept -/

@[simp] theorem accept_key (s : State) (i : Instr) : (s.accept i).key = s.key := rfl
@[simp] theorem accept_keyValid (s : State) (i : Instr) : (s.accept i).keyValid = s.keyValid := rfl
@[simp] theorem accept_mem (s : State) (i : Instr) : (s.accept i).mem = s.mem := rfl
@[simp] theorem accept_len (s : State) (i : Instr) : (s.accept i).len = s.len := rfl
@[simp] theorem accept_outLen (s : State) (i : Instr) : (s.accept i).outLen = s.outLen := rfl
@[simp] theorem accept_keyLen (s : State) (i : Instr) : (s.accept i).keyLen = s.keyLen := rfl
@[simp] theorem accept_irqEn (s : State) (i : Instr) : (s.accept i).irqEn = s.irqEn := rfl
@[simp] theorem accept_done (s : State) (i : Instr) : (s.accept i).done = false := rfl
@[simp] theorem accept_ovr (s : State) (i : Instr) : (s.accept i).ovr = s.ovr := rfl
@[simp] theorem accept_err (s : State) (i : Instr) : (s.accept i).err = 0#4 := rfl
@[simp] theorem accept_phase (s : State) (i : Instr) : (s.accept i).phase = .busy i := rfl
@[simp] theorem accept_dp (s : State) (i : Instr) : (s.accept i).dp = s.dp := rfl
@[simp] theorem accept_pending (s : State) (i : Instr) : (s.accept i).pending = s.pending := rfl
@[simp] theorem accept_readData (s : State) (i : Instr) : (s.accept i).readData = s.readData := rfl
@[simp] theorem accept_draws (s : State) (i : Instr) : (s.accept i).draws = s.draws := rfl
@[simp] theorem accept_word (s : State) (i : Instr) (t : Target) (n : Nat) : (s.accept i).word t n = s.word t n := rfl
@[simp] theorem accept_words (s : State) (i : Instr) (t : Target) (n : Nat) : (s.accept i).words t n = s.words t n := rfl
@[simp] theorem accept_written (s : State) (i : Instr) (t : Target) (n : Nat) : (s.accept i).written t n = s.written t n := rfl
@[simp] theorem accept_byte (s : State) (i : Instr) (t : Target) (n : Nat) : (s.accept i).byte t n = s.byte t n := rfl
@[simp] theorem accept_bufLen (s : State) (i : Instr) (t : Target) : (s.accept i).bufLen t = s.bufLen t := by cases t <;> rfl
@[simp] theorem accept_groups (s : State) (i : Instr) (t : Target) : (s.accept i).groups t = s.groups t := by cases t <;> rfl
@[simp] theorem accept_blockWords (s : State) (i : Instr) : (s.accept i).blockWords = s.blockWords := rfl

/-! ### State.finish -/

@[simp] theorem finish_key (s : State) : s.finish.key = s.key := rfl
@[simp] theorem finish_keyValid (s : State) : s.finish.keyValid = s.keyValid := rfl
@[simp] theorem finish_mem (s : State) : s.finish.mem = s.mem := rfl
@[simp] theorem finish_len (s : State) : s.finish.len = s.len := rfl
@[simp] theorem finish_outLen (s : State) : s.finish.outLen = s.outLen := rfl
@[simp] theorem finish_keyLen (s : State) : s.finish.keyLen = s.keyLen := rfl
@[simp] theorem finish_irqEn (s : State) : s.finish.irqEn = s.irqEn := rfl
@[simp] theorem finish_done (s : State) : s.finish.done = true := rfl
@[simp] theorem finish_ovr (s : State) : s.finish.ovr = s.ovr := rfl
@[simp] theorem finish_err (s : State) : s.finish.err = s.err := rfl
@[simp] theorem finish_phase (s : State) : s.finish.phase = .idle := rfl
@[simp] theorem finish_dp (s : State) : s.finish.dp = s.dp := rfl
@[simp] theorem finish_pending (s : State) : s.finish.pending = s.pending := rfl
@[simp] theorem finish_readData (s : State) : s.finish.readData = s.readData := rfl
@[simp] theorem finish_draws (s : State) : s.finish.draws = s.draws := rfl
@[simp] theorem finish_word (s : State) (t : Target) (n : Nat) : s.finish.word t n = s.word t n := rfl
@[simp] theorem finish_words (s : State) (t : Target) (n : Nat) : s.finish.words t n = s.words t n := rfl
@[simp] theorem finish_written (s : State) (t : Target) (n : Nat) : s.finish.written t n = s.written t n := rfl
@[simp] theorem finish_byte (s : State) (t : Target) (n : Nat) : s.finish.byte t n = s.byte t n := rfl
@[simp] theorem finish_bufLen (s : State) (t : Target) : s.finish.bufLen t = s.bufLen t := by cases t <;> rfl
@[simp] theorem finish_groups (s : State) (t : Target) : s.finish.groups t = s.groups t := by cases t <;> rfl
@[simp] theorem finish_blockWords (s : State) : s.finish.blockWords = s.blockWords := rfl

/-! ### State.setWords -/

@[simp] theorem setWords_key (s : State) (t : Target) (ws : List Word) : (s.setWords t ws).key = s.key := rfl
@[simp] theorem setWords_keyValid (s : State) (t : Target) (ws : List Word) : (s.setWords t ws).keyValid = s.keyValid := rfl
@[simp] theorem setWords_mem (s : State) (t : Target) (ws : List Word) : (s.setWords t ws).mem = writeWords s.mem (bufBase t) ws := rfl
@[simp] theorem setWords_len (s : State) (t : Target) (ws : List Word) : (s.setWords t ws).len = s.len := rfl
@[simp] theorem setWords_outLen (s : State) (t : Target) (ws : List Word) : (s.setWords t ws).outLen = s.outLen := rfl
@[simp] theorem setWords_keyLen (s : State) (t : Target) (ws : List Word) : (s.setWords t ws).keyLen = s.keyLen := rfl
@[simp] theorem setWords_irqEn (s : State) (t : Target) (ws : List Word) : (s.setWords t ws).irqEn = s.irqEn := rfl
@[simp] theorem setWords_done (s : State) (t : Target) (ws : List Word) : (s.setWords t ws).done = s.done := rfl
@[simp] theorem setWords_ovr (s : State) (t : Target) (ws : List Word) : (s.setWords t ws).ovr = s.ovr := rfl
@[simp] theorem setWords_err (s : State) (t : Target) (ws : List Word) : (s.setWords t ws).err = s.err := rfl
@[simp] theorem setWords_phase (s : State) (t : Target) (ws : List Word) : (s.setWords t ws).phase = s.phase := rfl
@[simp] theorem setWords_dp (s : State) (t : Target) (ws : List Word) : (s.setWords t ws).dp = s.dp := rfl
@[simp] theorem setWords_pending (s : State) (t : Target) (ws : List Word) : (s.setWords t ws).pending = s.pending := rfl
@[simp] theorem setWords_readData (s : State) (t : Target) (ws : List Word) : (s.setWords t ws).readData = s.readData := rfl
@[simp] theorem setWords_draws (s : State) (t : Target) (ws : List Word) : (s.setWords t ws).draws = s.draws := rfl

/-! ### State.returning -/

@[simp] theorem returning_key (s : State) (v : Word) : (s.returning v).key = s.key := rfl
@[simp] theorem returning_keyValid (s : State) (v : Word) : (s.returning v).keyValid = s.keyValid := rfl
@[simp] theorem returning_mem (s : State) (v : Word) : (s.returning v).mem = s.mem := rfl
@[simp] theorem returning_len (s : State) (v : Word) : (s.returning v).len = s.len := rfl
@[simp] theorem returning_outLen (s : State) (v : Word) : (s.returning v).outLen = s.outLen := rfl
@[simp] theorem returning_keyLen (s : State) (v : Word) : (s.returning v).keyLen = s.keyLen := rfl
@[simp] theorem returning_irqEn (s : State) (v : Word) : (s.returning v).irqEn = s.irqEn := rfl
@[simp] theorem returning_done (s : State) (v : Word) : (s.returning v).done = s.done := rfl
@[simp] theorem returning_ovr (s : State) (v : Word) : (s.returning v).ovr = s.ovr := rfl
@[simp] theorem returning_err (s : State) (v : Word) : (s.returning v).err = s.err := rfl
@[simp] theorem returning_phase (s : State) (v : Word) : (s.returning v).phase = s.phase := rfl
@[simp] theorem returning_dp (s : State) (v : Word) : (s.returning v).dp = s.dp := rfl
@[simp] theorem returning_pending (s : State) (v : Word) : (s.returning v).pending = s.pending := rfl
@[simp] theorem returning_readData (s : State) (v : Word) : (s.returning v).readData = some v := rfl
@[simp] theorem returning_draws (s : State) (v : Word) : (s.returning v).draws = s.draws := rfl
@[simp] theorem returning_word (s : State) (v : Word) (t : Target) (n : Nat) : (s.returning v).word t n = s.word t n := rfl
@[simp] theorem returning_words (s : State) (v : Word) (t : Target) (n : Nat) : (s.returning v).words t n = s.words t n := rfl
@[simp] theorem returning_written (s : State) (v : Word) (t : Target) (n : Nat) : (s.returning v).written t n = s.written t n := rfl
@[simp] theorem returning_byte (s : State) (v : Word) (t : Target) (n : Nat) : (s.returning v).byte t n = s.byte t n := rfl
@[simp] theorem returning_bufLen (s : State) (v : Word) (t : Target) : (s.returning v).bufLen t = s.bufLen t := by cases t <;> rfl
@[simp] theorem returning_groups (s : State) (v : Word) (t : Target) : (s.returning v).groups t = s.groups t := by cases t <;> rfl
@[simp] theorem returning_blockWords (s : State) (v : Word) : (s.returning v).blockWords = s.blockWords := rfl

/-! ### State.clearStatus -/

@[simp] theorem clearStatus_key (s : State) (v : Word) : (s.clearStatus v).key = s.key := rfl
@[simp] theorem clearStatus_keyValid (s : State) (v : Word) : (s.clearStatus v).keyValid = s.keyValid := rfl
@[simp] theorem clearStatus_mem (s : State) (v : Word) : (s.clearStatus v).mem = s.mem := rfl
@[simp] theorem clearStatus_len (s : State) (v : Word) : (s.clearStatus v).len = s.len := rfl
@[simp] theorem clearStatus_outLen (s : State) (v : Word) : (s.clearStatus v).outLen = s.outLen := rfl
@[simp] theorem clearStatus_keyLen (s : State) (v : Word) : (s.clearStatus v).keyLen = s.keyLen := rfl
@[simp] theorem clearStatus_irqEn (s : State) (v : Word) : (s.clearStatus v).irqEn = s.irqEn := rfl
@[simp] theorem clearStatus_done (s : State) (v : Word) : (s.clearStatus v).done = (s.done && !v.getLsbD 1) := rfl
@[simp] theorem clearStatus_ovr (s : State) (v : Word) : (s.clearStatus v).ovr = (s.ovr && !v.getLsbD 3) := rfl
@[simp] theorem clearStatus_err (s : State) (v : Word) : (s.clearStatus v).err = s.err := rfl
@[simp] theorem clearStatus_phase (s : State) (v : Word) : (s.clearStatus v).phase = s.phase := rfl
@[simp] theorem clearStatus_dp (s : State) (v : Word) : (s.clearStatus v).dp = s.dp := rfl
@[simp] theorem clearStatus_pending (s : State) (v : Word) : (s.clearStatus v).pending = s.pending := rfl
@[simp] theorem clearStatus_readData (s : State) (v : Word) : (s.clearStatus v).readData = s.readData := rfl
@[simp] theorem clearStatus_draws (s : State) (v : Word) : (s.clearStatus v).draws = s.draws := rfl
@[simp] theorem clearStatus_word (s : State) (v : Word) (t : Target) (n : Nat) : (s.clearStatus v).word t n = s.word t n := rfl
@[simp] theorem clearStatus_words (s : State) (v : Word) (t : Target) (n : Nat) : (s.clearStatus v).words t n = s.words t n := rfl
@[simp] theorem clearStatus_written (s : State) (v : Word) (t : Target) (n : Nat) : (s.clearStatus v).written t n = s.written t n := rfl
@[simp] theorem clearStatus_byte (s : State) (v : Word) (t : Target) (n : Nat) : (s.clearStatus v).byte t n = s.byte t n := rfl
@[simp] theorem clearStatus_bufLen (s : State) (v : Word) (t : Target) : (s.clearStatus v).bufLen t = s.bufLen t := by cases t <;> rfl
@[simp] theorem clearStatus_groups (s : State) (v : Word) (t : Target) : (s.clearStatus v).groups t = s.groups t := by cases t <;> rfl
@[simp] theorem clearStatus_blockWords (s : State) (v : Word) : (s.clearStatus v).blockWords = s.blockWords := rfl

/-! ### State.withCommandWrite -/

@[simp] theorem withCommandWrite_key (s : State) (w : Word) : (s.withCommandWrite w).key = s.key := rfl
@[simp] theorem withCommandWrite_keyValid (s : State) (w : Word) : (s.withCommandWrite w).keyValid = s.keyValid := rfl
@[simp] theorem withCommandWrite_mem (s : State) (w : Word) : (s.withCommandWrite w).mem = s.mem := rfl
@[simp] theorem withCommandWrite_len (s : State) (w : Word) : (s.withCommandWrite w).len = s.len := rfl
@[simp] theorem withCommandWrite_outLen (s : State) (w : Word) : (s.withCommandWrite w).outLen = s.outLen := rfl
@[simp] theorem withCommandWrite_keyLen (s : State) (w : Word) : (s.withCommandWrite w).keyLen = s.keyLen := rfl
@[simp] theorem withCommandWrite_irqEn (s : State) (w : Word) : (s.withCommandWrite w).irqEn = s.irqEn := rfl
@[simp] theorem withCommandWrite_done (s : State) (w : Word) : (s.withCommandWrite w).done = s.done := rfl
@[simp] theorem withCommandWrite_ovr (s : State) (w : Word) : (s.withCommandWrite w).ovr = s.ovr := rfl
@[simp] theorem withCommandWrite_err (s : State) (w : Word) : (s.withCommandWrite w).err = s.err := rfl
@[simp] theorem withCommandWrite_phase (s : State) (w : Word) : (s.withCommandWrite w).phase = .idle := rfl
@[simp] theorem withCommandWrite_dp (s : State) (w : Word) : (s.withCommandWrite w).dp = s.dp := rfl
@[simp] theorem withCommandWrite_pending (s : State) (w : Word) : (s.withCommandWrite w).pending = .write cmdOffset 4 w :: s.pending := rfl
@[simp] theorem withCommandWrite_readData (s : State) (w : Word) : (s.withCommandWrite w).readData = s.readData := rfl
@[simp] theorem withCommandWrite_draws (s : State) (w : Word) : (s.withCommandWrite w).draws = s.draws := rfl

/-! ### What BUSY shows (R23) -/

@[simp] theorem busy_of_idle {s : State} (h : s.phase = .idle) : s.busy = false := by simp [State.busy, h]

@[simp] theorem busy_of_busy {s : State} {i : Instr} (h : s.phase = .busy i) : s.busy = true := by simp [State.busy, h]

/-! ### The next event -/

theorem nextEvent_of_nil {s : State} (h : s.pending = []) : s.nextEvent = .completion := by simp [State.nextEvent, h]

theorem nextEvent_of_cons {s : State} {e : Event} {es : List Event} (h : s.pending = e :: es) : s.nextEvent = e := by
  simp [State.nextEvent, h]

@[simp] theorem withCommandWrite_nextEvent (s : State) (w : Word) :
    (s.withCommandWrite w).nextEvent = .write cmdOffset 4 w := rfl

@[simp] theorem withFetchWord_eq (s : State) (nbits w : Nat) :
    s.withFetchWord nbits w = s.withCommandWrite (BitVec.ofNat 32 (w % 2 ^ nbits)) := rfl

end Sys2Proof.Machine
end

