-- ==== Sys2Proof/Laws/Exec.lean ====
section
/-! SUPPORT. What each shared operation of the command cycle can answer, once, and what the meanings are over them. A later
proof cites these and unfolds no operation. -/

namespace Sys2Proof.Machine

/-! ### The two steps of a command -/

/-- The validation of a command (R74). -/
def verdict : Instr → State → Verdict
  | .keyset => validateKeyset
  | .enc => validateCipher
  | .dec => validateCipher
  | .revw t => validateAdapter t
  | .revb t => validateAdapter t
  | .reva t => validateAdapter t

/-- The completion effect of a command (R76). -/
def effect : Instr → State → Result
  | .keyset => keysetEffect
  | .enc => cipherEffect encBlock
  | .dec => cipherEffect decBlock
  | .revw t => adapterEffect reverseWordOrder t
  | .revb t => adapterEffect reverseBytesPerWord t
  | .reva t => adapterEffect reverseWhole t

theorem exec_eq_commandCycle (i : Instr) (s : State) : exec i s = commandCycle i (verdict i) (effect i) s := by
  cases i <;> rfl

theorem exec_idle {s : State} (i : Instr) (h : s.phase = .idle) : exec i s = issue i (verdict i s) s := by
  simp [exec_eq_commandCycle, commandCycle, h]

theorem exec_busy {s : State} {j : Instr} (i : Instr) (h : s.phase = .busy j) : exec i s = complete (effect i s) := by
  simp [exec_eq_commandCycle, commandCycle, h]

theorem issue_next {i : Instr} {v : Verdict} {s t : State} (h : issue i v s = .next t) :
    (v = .ok ∧ t = s.accept i) ∨ ∃ e, v = .reject e ∧ t = s.raise e := by
  cases v <;> simp only [issue, reduceCtorEq, Host.Outcome.next.injEq] at h
  · exact .inl ⟨rfl, h.symm⟩
  · exact .inr ⟨_, rfl, h.symm⟩

theorem issue_fault {i : Instr} {v : Verdict} {s : State} {f : Fault} (h : issue i v s = .fault f) : v = .stop f := by
  cases v <;> simp_all [issue]

theorem issue_refused {i : Instr} {v : Verdict} {s : State} {r : Refusal} (h : issue i v s = .refused r) : False := by
  cases v <;> simp_all [issue]

theorem complete_next {r : Result} {t : State} (h : complete r = .next t) : ∃ u, r = .next u ∧ t = u.finish := by
  cases r <;> simp_all [complete]

theorem complete_fault {r : Result} {f : Fault} (h : complete r = .fault f) : r = .fault f := by
  cases r <;> simp_all [complete]

theorem complete_refused {r : Result} {e : Refusal} (h : complete r = .refused e) : r = .refused e := by
  cases r <;> simp_all [complete]

/-! ### Effects on the words of a buffer -/

theorem onWords_of_words {t : Target} {n : Nat} {f : List Word → State → State} {s : State} {ws : List Word}
    (h : s.words t n = some ws) : onWords t n f s = .next (f ws s) := by
  simp [onWords, h]

theorem onWords_next {t : Target} {n : Nat} {f : List Word → State → State} {s u : State}
    (h : onWords t n f s = .next u) : ∃ ws, s.words t n = some ws ∧ u = f ws s := by
  unfold onWords at h
  split at h
  · cases h
  · rename_i ws hw
    cases h
    exact ⟨ws, hw, rfl⟩

theorem onWords_fault {t : Target} {n : Nat} {f : List Word → State → State} {s : State} {e : Fault} :
    onWords t n f s = .fault e ↔ e = .unwrittenRead ∧ s.words t n = none := by
  unfold onWords
  cases s.words t n <;> cases e <;> simp

theorem onWords_refused {t : Target} {n : Nat} {f : List Word → State → State} {s : State} {e : Refusal}
    (h : onWords t n f s = .refused e) : False := by
  unfold onWords at h
  split at h <;> cases h

/-- A run of buffer words can be read exactly when each of them has been written. -/
theorem words_isSome {s : State} {t : Target} {n : Nat} :
    (s.words t n).isSome ↔ ∀ i, i < n → s.written t i = true := by
  simp only [State.words, readWords_isSome, State.written, State.word, wordAddr]

theorem words_eq_none {s : State} {t : Target} {n : Nat} :
    s.words t n = none ↔ ∃ i, i < n ∧ s.written t i = false := by
  rw [← Option.not_isSome_iff_eq_none, words_isSome]
  simp

theorem words_length {s : State} {t : Target} {n : Nat} {ws : List Word} (h : s.words t n = some ws) : ws.length = n :=
  readWords_length h

/-- States that agree on each of some words of a buffer agree on the run of them. -/
theorem words_congr {s t : State} {b : Target} {n : Nat} (h : ∀ i, i < n → t.word b i = s.word b i) :
    t.words b n = s.words b n :=
  readWords_congr h

/-- The words of a buffer after a run of them is written. -/
theorem word_setWords {s : State} {b : Target} {ws : List Word} {i : Nat} (h : i < ws.length) :
    (s.setWords b ws).word b i = some (ws.getD i 0#32) :=
  readWord_writeWords_same ws s.mem (bufBase b) h

theorem word_of_words {s : State} {t : Target} {n : Nat} {ws : List Word} (h : s.words t n = some ws) {i : Nat}
    (hi : i < n) : s.word t i = some (ws.getD i 0#32) :=
  readWord_of_readWords h hi

/-- Byte `4g + j` of a run of buffer words is lane `j` of word `g` (R44). -/
theorem byte_of_words {s : State} {t : Target} {n : Nat} {ws : List Word} (h : s.words t n = some ws) {g j : Nat}
    (hg : g < n) (hj : j < 4) : s.byte t (4 * g + j) = some (lane (ws.getD g 0#32) j) := by
  obtain ⟨h0, h1, h2, h3⟩ := readWord_eq_some.1 (word_of_words h hg)
  match j, hj with
  | 0, _ => exact h0
  | 1, _ => exact h1
  | 2, _ => exact h2
  | 3, _ => exact h3

/-- The four key words, one by one. -/
theorem words_keybuf_four {s : State} {w0 w1 w2 w3 : Word} :
    s.words .keybuf 4 = some [w0, w1, w2, w3] ↔ s.word .keybuf 0 = some w0 ∧ s.word .keybuf 1 = some w1 ∧
      s.word .keybuf 2 = some w2 ∧ s.word .keybuf 3 = some w3 := by
  constructor
  · intro h
    exact ⟨word_of_words h (by omega), word_of_words h (by omega), word_of_words h (by omega),
      word_of_words h (by omega)⟩
  · rintro ⟨h0, h1, h2, h3⟩
    have h : ∀ i (hi : i < [w0, w1, w2, w3].length),
        readWord s.mem (bufBase .keybuf + 4 * i) = some [w0, w1, w2, w3][i] := by
      intro i hi
      match i, hi with
      | 0, _ => exact h0
      | 1, _ => exact h1
      | 2, _ => exact h2
      | 3, _ => exact h3
    exact readWords_eq_some.2 h

theorem eq_four_of_words {s : State} {t : Target} {ws : List Word} (h : s.words t 4 = some ws) :
    ∃ w0 w1 w2 w3, ws = [w0, w1, w2, w3] := by
  have hl := words_length h
  match ws, hl with
  | [w0, w1, w2, w3], _ => exact ⟨w0, w1, w2, w3, rfl⟩

/-! ### Effects -/

/-- Every effect is one on the words R65 names. -/
theorem effect_eq_onWords (i : Instr) (s : State) :
    ∃ g : List Word → State → State, effect i s = onWords (commandBuffer i) (s.operandWords i) g s := by
  cases i with
  | keyset => exact ⟨fun ws s => { s with key := keyOfWords ws, keyValid := true }, rfl⟩
  | enc =>
    exact ⟨fun v s => { s with
      dp := (encBlock s.key s.dp v).1
      mem := writeWords s.mem (bufBase .data) (encBlock s.key s.dp v).2 }, rfl⟩
  | dec =>
    exact ⟨fun v s => { s with
      dp := (decBlock s.key s.dp v).1
      mem := writeWords s.mem (bufBase .data) (decBlock s.key s.dp v).2 }, rfl⟩
  | revw t => exact ⟨fun ws s => s.setWords t (reverseWordOrder ws), rfl⟩
  | revb t => exact ⟨fun ws s => s.setWords t (reverseBytesPerWord ws), rfl⟩
  | reva t => exact ⟨fun ws s => s.setWords t (reverseWhole ws), rfl⟩

/-- Which words an effect reads is R65's: it faults exactly where one of them is unwritten, and else answers a next state. -/
theorem effect_fault {i : Instr} {s : State} {f : Fault} :
    effect i s = .fault f ↔ f = .unwrittenRead ∧ s.words (commandBuffer i) (s.operandWords i) = none := by
  obtain ⟨g, hg⟩ := effect_eq_onWords i s
  rw [hg]
  exact onWords_fault

theorem effect_refused {i : Instr} {s : State} {r : Refusal} (h : effect i s = .refused r) : False := by
  obtain ⟨g, hg⟩ := effect_eq_onWords i s
  rw [hg] at h
  exact onWords_refused h

theorem effect_keyset_next {s u : State} (h : effect .keyset s = .next u) :
    ∃ w0 w1 w2 w3, s.words .keybuf 4 = some [w0, w1, w2, w3] ∧
      u = { s with key := ⟨w0, w1, w2, w3⟩, keyValid := true } := by
  unfold effect keysetEffect at h
  obtain ⟨ws, hw, rfl⟩ := onWords_next h
  obtain ⟨w0, w1, w2, w3, rfl⟩ := eq_four_of_words hw
  exact ⟨w0, w1, w2, w3, hw, rfl⟩

/-- The effect of KEYSET on four readable key words. -/
theorem keysetEffect_of_words {s : State} {w0 w1 w2 w3 : Word} (h : s.words .keybuf 4 = some [w0, w1, w2, w3]) :
    keysetEffect s = .next { s with key := ⟨w0, w1, w2, w3⟩, keyValid := true } :=
  onWords_of_words h

/-- A layout of the words of a buffer that keeps their number: what REVW, REVB and REVA do (R89–R91). -/
def layoutOf : Instr → Option (Target × (List Word → List Word))
  | .keyset => none
  | .enc => none
  | .dec => none
  | .revw t => some (t, reverseWordOrder)
  | .revb t => some (t, reverseBytesPerWord)
  | .reva t => some (t, reverseWhole)

theorem effect_layout {i : Instr} {t : Target} {f : List Word → List Word} (h : layoutOf i = some (t, f)) (s : State) :
    effect i s = adapterEffect f t s := by
  cases i <;> cases h <;> rfl

theorem layoutOf_length {i : Instr} {t : Target} {f : List Word → List Word} (h : layoutOf i = some (t, f))
    (ws : List Word) : (f ws).length = ws.length := by
  cases i <;> cases h <;> simp [reverseWordOrder, reverseBytesPerWord, reverseWhole]

/-- The block function of ENC and DEC (R111, R117). -/
def blockOf : Instr → Option (KeyFile → Datapath → List Word → Work)
  | .keyset => none
  | .enc => some encBlock
  | .dec => some decBlock
  | .revw _ => none
  | .revb _ => none
  | .reva _ => none

theorem effect_block {i : Instr} {f : KeyFile → Datapath → List Word → Work} (h : blockOf i = some f) (s : State) :
    effect i s = cipherEffect f s := by
  cases i <;> cases h <;> rfl

/-! ### Validations -/

theorem validateAdapter_eq (t : Target) (s : State) :
    validateAdapter t s = if s.legalLayout t then .ok else .reject .invalidLength := by
  unfold validateAdapter State.legalLayout
  by_cases h : (s.bufLen t).toNat < 4 ∨ (s.bufLen t).toNat % 4 ≠ 0 ∨ bufCap t < (s.bufLen t).toNat
  · rw [if_pos h, if_neg (by omega)]
  · rw [if_neg h, if_pos (by omega)]

theorem validateCipher_eq (s : State) :
    validateCipher s = if s.legalBlock then
        if s.outLen = s.len then if s.keyValid = true then .ok else .reject .noKey else .reject .lengthMismatch
      else .reject .invalidDataLength := by
  unfold validateCipher State.legalBlock Config.lMin Config.lMax
  by_cases h : s.len.toNat < 12 ∨ 208 < s.len.toNat ∨ s.len.toNat % 4 ≠ 0
  · rw [if_pos h, if_neg (by omega)]
  · have hl : 12 ≤ s.len.toNat ∧ s.len.toNat ≤ 208 ∧ s.len.toNat % 4 = 0 := by omega
    rw [if_neg h, if_pos hl]
    by_cases ho : s.outLen = s.len <;> cases hk : s.keyValid <;> simp [ho]

theorem validateKeyset_eq (s : State) :
    validateKeyset s = if s.keyLen = 16#32 then
        match s.words .keybuf 4 with
        | none => .stop .unwrittenRead
        | some ws => if orWords ws = 0#32 then .reject .zeroKey else .ok
      else .reject .invalidKeyLength := by
  unfold validateKeyset
  by_cases h : s.keyLen = 16#32
  · rw [if_pos h, if_neg (by simpa [Config.keyBytes] using h)]
    rfl
  · rw [if_neg h, if_pos (by simpa [Config.keyBytes] using h)]

theorem orWords_four (w0 w1 w2 w3 : Word) : orWords [w0, w1, w2, w3] = w0 ||| w1 ||| w2 ||| w3 := by
  simp [orWords, BitVec.or_assoc]

/-- A validation passes exactly when the checks of its rule pass. -/
theorem verdict_eq_ok {i : Instr} {s : State} : verdict i s = .ok ↔ Accepts s i := by
  have adapter (t : Target) : validateAdapter t s = .ok ↔ s.legalLayout t := by
    rw [validateAdapter_eq]
    by_cases h : s.legalLayout t
    · rw [if_pos h]
      exact iff_of_true rfl h
    · rw [if_neg h]
      exact iff_of_false nofun h
  have cipher : validateCipher s = .ok ↔ s.legalBlock ∧ s.outLen = s.len ∧ s.keyValid = true := by
    rw [validateCipher_eq]
    by_cases h : s.legalBlock
    · rw [if_pos h]
      by_cases ho : s.outLen = s.len
      · rw [if_pos ho]
        by_cases hk : s.keyValid = true
        · rw [if_pos hk]
          exact iff_of_true rfl ⟨h, ho, hk⟩
        · rw [if_neg hk]
          exact iff_of_false nofun fun h' => hk h'.2.2
      · rw [if_neg ho]
        exact iff_of_false nofun fun h' => ho h'.2.1
    · rw [if_neg h]
      exact iff_of_false nofun fun h' => h h'.1
  cases i with
  | keyset =>
    simp only [verdict, Accepts, validateKeyset_eq]
    by_cases h : s.keyLen = 16#32
    · cases hw : s.words .keybuf 4 with
      | none =>
        simp only [h, if_true, reduceCtorEq, false_iff, true_and]
        rintro ⟨w0, w1, w2, w3, h0, h1, h2, h3, -⟩
        rw [words_keybuf_four.2 ⟨h0, h1, h2, h3⟩] at hw
        cases hw
      | some ws =>
        obtain ⟨w0, w1, w2, w3, rfl⟩ := eq_four_of_words hw
        obtain ⟨h0, h1, h2, h3⟩ := words_keybuf_four.1 hw
        simp only [h, h0, h1, h2, h3, orWords_four, if_true, true_and, Option.some.injEq, exists_and_left,
          exists_eq_left', ne_eq]
        by_cases hz : w0 ||| w1 ||| w2 ||| w3 = 0#32
        · rw [if_pos hz]
          exact iff_of_false nofun (not_not_intro hz)
        · rw [if_neg hz]
          exact iff_of_true rfl hz
    · simp [h]
  | enc => exact cipher
  | dec => exact cipher
  | revw t => exact adapter t
  | revb t => exact adapter t
  | reva t => exact adapter t

/-- Only the zero test of KEYSET reads a buffer at validation (R74). -/
theorem verdict_stop {i : Instr} {s : State} {f : Fault} :
    verdict i s = .stop f ↔ i = .keyset ∧ f = .unwrittenRead ∧ s.keyLen = 16#32 ∧ s.words .keybuf 4 = none := by
  cases i with
  | keyset =>
    simp only [verdict, validateKeyset_eq]
    by_cases h : s.keyLen = 16#32
    · cases hw : s.words .keybuf 4 with
      | none => cases f; simp [h]
      | some ws =>
        by_cases hz : orWords ws = 0#32 <;> simp [h, hz]
    · simp [h]
  | enc => simp only [verdict, validateCipher_eq]; split_ifs <;> simp
  | dec => simp only [verdict, validateCipher_eq]; split_ifs <;> simp
  | revw t => simp only [verdict, validateAdapter_eq]; split_ifs <;> simp
  | revb t => simp only [verdict, validateAdapter_eq]; split_ifs <;> simp
  | reva t => simp only [verdict, validateAdapter_eq]; split_ifs <;> simp

/-! ### What a command can answer -/

/-- Everything a command can answer as a next state: accepted or rejected while idle, completed while busy. -/
theorem exec_next {i : Instr} {s t : State} (h : exec i s = .next t) :
    (s.phase = .idle ∧ Accepts s i ∧ t = s.accept i) ∨ (s.phase = .idle ∧ ¬Accepts s i ∧ ∃ e, t = s.raise e) ∨
      ∃ j u, s.phase = .busy j ∧ effect i s = .next u ∧ t = u.finish := by
  cases hp : s.phase with
  | idle =>
    rw [exec_idle i hp] at h
    rcases issue_next h with ⟨hv, rfl⟩ | ⟨e, hv, rfl⟩
    · exact .inl ⟨rfl, verdict_eq_ok.1 hv, rfl⟩
    · refine .inr (.inl ⟨rfl, fun ha => ?_, e, rfl⟩)
      rw [verdict_eq_ok.2 ha] at hv
      cases hv
  | busy j =>
    rw [exec_busy i hp] at h
    obtain ⟨u, hu, rfl⟩ := complete_next h
    exact .inr (.inr ⟨j, u, rfl, hu, rfl⟩)

theorem exec_refused {i : Instr} {s : State} {r : Refusal} (h : exec i s = .refused r) : False := by
  cases hp : s.phase with
  | idle =>
    rw [exec_idle i hp] at h
    exact issue_refused h
  | busy j =>
    rw [exec_busy i hp] at h
    exact effect_refused (complete_refused h)

/-- A state's phase is idle or busy with a command. -/
theorem phase_cases (s : State) : s.phase = .idle ∨ ∃ i, s.phase = .busy i := by
  cases s.phase with
  | idle => exact .inl rfl
  | busy i => exact .inr ⟨i, rfl⟩

/-- An effect whose operand words are written answers a next state. -/
theorem effect_of_written {i : Instr} {s : State} (h : s.operandsWritten i) : ∃ u, effect i s = .next u := by
  cases he : effect i s with
  | next u => exact ⟨u, rfl⟩
  | fault f =>
    obtain ⟨n, hn, hw⟩ := words_eq_none.1 (effect_fault.1 he).2
    rw [h n hn] at hw
    cases hw
  | refused r => exact (effect_refused he).elim

/-- When a command's issue faults: only at KEYSET's zero test (R74). -/
theorem exec_idle_fault {i : Instr} {s : State} {f : Fault} (h : s.phase = .idle) :
    exec i s = .fault f ↔
      i = .keyset ∧ f = .unwrittenRead ∧ s.keyLen = 16#32 ∧ s.words .keybuf 4 = none := by
  rw [exec_idle i h, ← verdict_stop]
  constructor
  · exact issue_fault
  · intro h
    rw [h]
    rfl

/-- When a command's completion faults: where a word it reads is unwritten (R76). -/
theorem exec_busy_fault {i j : Instr} {s : State} {f : Fault} (h : s.phase = .busy j) :
    exec i s = .fault f ↔ f = .unwrittenRead ∧ s.words (commandBuffer i) (s.operandWords i) = none := by
  rw [exec_busy i h, ← effect_fault]
  constructor
  · exact complete_fault
  · intro h
    rw [h]
    rfl

end Sys2Proof.Machine
end

