-- ==== Sys2Proof/Laws/Cipher.lean ====
section
/-! SUPPORT. The small lemmas of the round mixer and the two sequencers: what each piece keeps (spec/43_round_mixer.md,
spec/44_encryptor.md, spec/45_decryptor.md). -/

namespace Sys2Proof.Machine

/-! These are proved by cases, so that simp cites them and does not leave `x + DELTA` to the kernel's unfolding. -/

@[simp] theorem encUpdate_length (k : KeyFile) (l : Nat) (c : Work) (p : Nat) :
    (encUpdate k l c p).2.length = c.2.length := by simp [encUpdate]

@[simp] theorem decUpdate_length (k : KeyFile) (l : Nat) (c : Work) (p : Nat) :
    (decUpdate k l c p).2.length = c.2.length := by simp [decUpdate]

@[simp] theorem openRound_snd (sum : Word) (c : Work) : (openRound sum c).2 = c.2 := by cases c; rfl
@[simp] theorem openRound_sum (sum : Word) (c : Work) : (openRound sum c).1.sum = sum := by cases c; rfl
@[simp] theorem openRound_e (sum : Word) (c : Work) : (openRound sum c).1.e = roundIndex sum := by cases c; rfl
@[simp] theorem openRound_y (sum : Word) (c : Work) : (openRound sum c).1.y = c.1.y := by cases c; rfl
@[simp] theorem openRound_z (sum : Word) (c : Work) : (openRound sum c).1.z = c.1.z := by cases c; rfl
@[simp] theorem closeRound_snd (sum : Word) (c : Work) : (closeRound sum c).2 = c.2 := by cases c; rfl
@[simp] theorem closeRound_sum (sum : Word) (c : Work) : (closeRound sum c).1.sum = sum := by cases c; rfl
@[simp] theorem closeRound_y (sum : Word) (c : Work) : (closeRound sum c).1.y = c.1.y := by cases c; rfl
@[simp] theorem closeRound_z (sum : Word) (c : Work) : (closeRound sum c).1.z = c.1.z := by cases c; rfl
@[simp] theorem encUpdate_sum (k : KeyFile) (l : Nat) (c : Work) (p : Nat) :
    (encUpdate k l c p).1.sum = c.1.sum := by cases c; rfl
@[simp] theorem encUpdate_e (k : KeyFile) (l : Nat) (c : Work) (p : Nat) :
    (encUpdate k l c p).1.e = c.1.e := by cases c; rfl
@[simp] theorem encUpdate_q (k : KeyFile) (l : Nat) (c : Work) (p : Nat) :
    (encUpdate k l c p).1.q = c.1.q := by cases c; rfl
@[simp] theorem decUpdate_sum (k : KeyFile) (l : Nat) (c : Work) (p : Nat) :
    (decUpdate k l c p).1.sum = c.1.sum := by cases c; rfl
@[simp] theorem decUpdate_e (k : KeyFile) (l : Nat) (c : Work) (p : Nat) :
    (decUpdate k l c p).1.e = c.1.e := by cases c; rfl
@[simp] theorem decUpdate_q (k : KeyFile) (l : Nat) (c : Work) (p : Nat) :
    (decUpdate k l c p).1.q = c.1.q := by cases c; rfl

/-- A measure every update keeps is kept by a whole pass. -/
theorem foldl_keeps {α β γ : Type} (f : α → β → α) (g : α → γ) (h : ∀ a b, g (f a b) = g a) (l : List β) (a : α) :
    g (l.foldl f a) = g a := by
  induction l generalizing a with
  | nil => rfl
  | cons b l ih => rw [List.foldl_cons, ih, h]

@[simp] theorem encRound_length (k : KeyFile) (n : Nat) (c : Work) : (encRound k n c).2.length = c.2.length := by
  rw [encRound, foldl_keeps (encUpdate k (n - 1)) (fun c => c.2.length) (by simp), openRound_snd]

@[simp] theorem decRound_length (k : KeyFile) (n : Nat) (c : Work) : (decRound k n c).2.length = c.2.length := by
  rw [decRound, closeRound_snd, foldl_keeps (decUpdate k (n - 1)) (fun c => c.2.length) (by simp), openRound_snd]

theorem encRounds_length (k : KeyFile) (n r : Nat) (c : Work) : (encRounds k n r c).2.length = c.2.length := by
  induction r generalizing c with
  | zero => rfl
  | succ r ih => rw [encRounds, ih, encRound_length]

theorem decRounds_length (k : KeyFile) (n r : Nat) (c : Work) : (decRounds k n r c).2.length = c.2.length := by
  induction r generalizing c with
  | zero => rfl
  | succ r ih => rw [decRounds, ih, decRound_length]

/-- R114: ENC keeps the length of the block. -/
@[simp] theorem encBlock_length (k : KeyFile) (d : Datapath) (v : List Word) : (encBlock k d v).2.length = v.length :=
  encRounds_length ..

@[simp] theorem decBlock_length (k : KeyFile) (d : Datapath) (v : List Word) : (decBlock k d v).2.length = v.length :=
  decRounds_length ..

@[simp] theorem encChainUpdate_length (k : KeyFile) (sum : Word) (v : List Word) (p : Nat) :
    (encChainUpdate k sum v p).length = v.length := by simp [encChainUpdate]

@[simp] theorem decChainUpdate_length (k : KeyFile) (sum : Word) (v : List Word) (p : Nat) :
    (decChainUpdate k sum v p).length = v.length := by simp [decChainUpdate]

/-- The effect of a cipher command on a readable block. -/
theorem cipherEffect_of_words {f : KeyFile → Datapath → List Word → Work} {s : State} {v : List Word}
    (h : s.words .data s.blockWords = some v) :
    cipherEffect f s =
      .next { s with dp := (f s.key s.dp v).1, mem := writeWords s.mem (bufBase .data) (f s.key s.dp v).2 } :=
  onWords_of_words h

/-- Everything the effect of a cipher command can answer as a next state. -/
theorem cipherEffect_next {f : KeyFile → Datapath → List Word → Work} {s u : State} (h : cipherEffect f s = .next u) :
    ∃ v, s.words .data s.blockWords = some v ∧
      u = { s with dp := (f s.key s.dp v).1, mem := writeWords s.mem (bufBase .data) (f s.key s.dp v).2 } :=
  onWords_next h

/-- Everything the effect of a byte-layout command can answer as a next state. -/
theorem adapterEffect_next {f : List Word → List Word} {t : Target} {s u : State} (h : adapterEffect f t s = .next u) :
    ∃ ws, s.words t (s.groups t) = some ws ∧ u = s.setWords t (f ws) :=
  onWords_next h

/-- The effect of a byte-layout command on readable groups. -/
theorem adapterEffect_of_words {f : List Word → List Word} {t : Target} {s : State} {ws : List Word}
    (h : s.words t (s.groups t) = some ws) : adapterEffect f t s = .next (s.setWords t (f ws)) :=
  onWords_of_words h

/-- The registers no effect writes: all but the buffers, the datapath and, for KEYSET, K with KEY_VALID. -/
theorem effect_frame {i : Instr} {s u : State} (h : effect i s = .next u) :
    u.len = s.len ∧ u.outLen = s.outLen ∧ u.keyLen = s.keyLen ∧ u.irqEn = s.irqEn ∧ u.done = s.done ∧
      u.ovr = s.ovr ∧ u.err = s.err ∧ u.phase = s.phase ∧ u.pending = s.pending ∧ u.readData = s.readData ∧
      u.draws = s.draws := by
  cases i with
  | keyset => obtain ⟨_, _, _, _, _, rfl⟩ := effect_keyset_next h; simp
  | enc => obtain ⟨_, _, rfl⟩ := cipherEffect_next h; simp
  | dec => obtain ⟨_, _, rfl⟩ := cipherEffect_next h; simp
  | revw t => obtain ⟨_, _, rfl⟩ := adapterEffect_next h; simp
  | revb t => obtain ⟨_, _, rfl⟩ := adapterEffect_next h; simp
  | reva t => obtain ⟨_, _, rfl⟩ := adapterEffect_next h; simp

/-- Only KEYSET's effect writes K and KEY_VALID (R13, R25). -/
theorem effect_key {i : Instr} {s u : State} (h : effect i s = .next u) :
    (u.key = s.key ∧ u.keyValid = s.keyValid) ∨ i = .keyset ∧ u.keyValid = true := by
  cases i with
  | keyset => obtain ⟨_, _, _, _, _, rfl⟩ := effect_keyset_next h; exact .inr ⟨rfl, rfl⟩
  | enc => obtain ⟨_, _, rfl⟩ := cipherEffect_next h; exact .inl ⟨rfl, rfl⟩
  | dec => obtain ⟨_, _, rfl⟩ := cipherEffect_next h; exact .inl ⟨rfl, rfl⟩
  | revw t => obtain ⟨_, _, rfl⟩ := adapterEffect_next h; exact .inl ⟨rfl, rfl⟩
  | revb t => obtain ⟨_, _, rfl⟩ := adapterEffect_next h; exact .inl ⟨rfl, rfl⟩
  | reva t => obtain ⟨_, _, rfl⟩ := adapterEffect_next h; exact .inl ⟨rfl, rfl⟩

end Sys2Proof.Machine
end

