-- ==== Sys2Proof/Laws/PerInstr.lean ====
section
/-! SUPPORT. What is said of every command as syntax: its CMD word lies in its row of spec/opcode_table.json. -/

namespace Sys2Proof.Laws.TableRow

/-- A row of spec/opcode_table.json: its match and its mask. -/
def row : Instr → Word × Word
  | .keyset => (0x00000001#32, 0xFFFFFFFF#32)
  | .enc => (0x00000002#32, 0xFFFFFFFF#32)
  | .dec => (0x00000003#32, 0xFFFFFFFF#32)
  | .revw _ => (0x00000004#32, 0xFFFFFFEF#32)
  | .revb _ => (0x00000005#32, 0xFFFFFFEF#32)
  | .reva _ => (0x00000006#32, 0xFFFFFFEF#32)

/-- The encoder's word of a command is well formed and matches the command's row under the row's mask. -/
def Statement (i : Instr) : Prop := i.wf = true ∧ encode i &&& (row i).2 = (row i).1

theorem keyset : Statement .keyset := by constructor <;> decide

theorem enc : Statement .enc := by constructor <;> decide

theorem dec : Statement .dec := by constructor <;> decide

theorem revw (t : Target) : Statement (.revw t) := by cases t <;> constructor <;> decide

theorem revb (t : Target) : Statement (.revb t) := by cases t <;> constructor <;> decide

theorem reva (t : Target) : Statement (.reva t) := by cases t <;> constructor <;> decide

end Sys2Proof.Laws.TableRow
end

