-- ==== Sys2Proof/Laws/Step.lean ====
section
/-! SUPPORT. What each event, and so a step, can answer, once (spec/20_memory.md R48, R49; spec/40_command_cycle.md R73). -/

namespace Sys2Proof.Machine

/-- The access check of R40 in its three parts. -/
theorem wordAccess_iff {off size : Nat} : wordAccess off size = true ↔ size = 4 ∧ off % 4 = 0 ∧ off < 512 := by
  simp only [wordAccess, Config.windowBytes, Bool.and_eq_true, beq_iff_eq, and_assoc]
  exact ⟨fun h => ⟨h.1, h.2.1, of_decide_eq_true h.2.2⟩, fun h => ⟨h.1, h.2.1, decide_eq_true h.2.2⟩⟩

/-- The slots of the window that hold buffer words (R37). -/
theorem slotAt_buf {w i : Nat} {t : Target} (h : slotAt w = .buf t i) :
    (t = .keybuf ∧ w = 8 + i ∧ i < 4) ∨ (t = .data ∧ w = 64 + i ∧ i < 52) := by
  unfold slotAt at h
  split_ifs at h <;> simp only [Slot.buf.injEq] at h
  · obtain ⟨rfl, rfl⟩ := h
    exact .inl ⟨rfl, by omega, by omega⟩
  · obtain ⟨rfl, rfl⟩ := h
    exact .inr ⟨rfl, by omega, by omega⟩

/-! ### Host reads -/

/-- A host read answers a value and leaves every state of the block as it was (R48). -/
theorem hostRead_next {w : Nat} {s t : State} (h : hostRead w s = .next t) :
    (∃ v, t = s.returning v) ∨
      ∃ j, s.phase = .busy j ∧ t = { s.returning (Config.freeWord s.draws) with draws := s.draws + 1 } := by
  unfold hostRead at h
  cases hs : slotAt w with
  | buf b i =>
    simp only [hs, readBuffer] at h
    cases hp : s.phase with
    | idle =>
      simp only [hp] at h
      cases hw : s.word b i with
      | none => simp [hw] at h
      | some v =>
        simp only [hw, Host.Outcome.next.injEq] at h
        exact .inl ⟨v, h.symm⟩
    | busy j =>
      simp only [hp, Host.Outcome.next.injEq] at h
      exact .inr ⟨j, rfl, h.symm⟩
  | _ =>
    simp only [hs, Host.Outcome.next.injEq] at h
    exact .inl ⟨_, h.symm⟩

theorem hostRead_fault {w : Nat} {s : State} {f : Fault} :
    hostRead w s = .fault f ↔ f = .unwrittenRead ∧ s.phase = .idle ∧ ∃ t i, slotAt w = .buf t i ∧ s.written t i = false := by
  unfold hostRead
  cases hs : slotAt w with
  | buf b i =>
    simp only [readBuffer]
    cases hp : s.phase with
    | idle =>
      cases hw : s.word b i <;> cases f <;> simp [State.written, hw]
    | busy j => simp
  | _ => simp

theorem hostRead_refused {w : Nat} {s : State} {r : Refusal} (h : hostRead w s = .refused r) : False := by
  unfold hostRead at h
  cases hs : slotAt w with
  | buf b i =>
    simp only [hs, readBuffer] at h
    cases hp : s.phase with
    | idle => cases hw : s.word b i <;> simp [hp, hw] at h
    | busy j => simp [hp] at h
  | _ => simp [hs] at h

/-! ### Host writes -/

theorem unlessBusy_idle {s : State} (k : State → Result) (h : s.phase = .idle) : unlessBusy s k = k s := by
  simp [unlessBusy, h]

theorem unlessBusy_busy {s : State} {j : Instr} (k : State → Result) (h : s.phase = .busy j) :
    unlessBusy s k = .next { s with ovr := true } := by
  simp [unlessBusy, h]

/-- A host write while busy changes CTRL, DONE and OVR at most (R77). -/
theorem hostWrite_busy {w : Nat} {v : Word} {s : State} {j : Instr} (h : s.phase = .busy j) :
    hostWrite w v s = .next s ∨ hostWrite w v s = .next { s with irqEn := v.getLsbD 0 } ∨
      hostWrite w v s = .next (s.clearStatus v) ∨ hostWrite w v s = .next { s with ovr := true } := by
  unfold hostWrite
  cases slotAt w <;> simp [unlessBusy, h]

/-- What a host write can answer as a next state while idle (R49). -/
theorem hostWrite_idle_next {w : Nat} {v : Word} {s t : State} (hp : s.phase = .idle) (h : hostWrite w v s = .next t) :
    t = s ∨ t = { s with irqEn := v.getLsbD 0 } ∨ t = s.clearStatus v ∨ t = { s with len := v } ∨
      t = { s with outLen := v } ∨ t = { s with keyLen := v } ∨
      (∃ b i, slotAt w = .buf b i ∧ t = { s with mem := writeWord s.mem (wordAddr b i) v }) ∨
      (w = 3 ∧ ∃ why, decode v = .illegal why ∧ t = s.raise .illegalCommand) ∨
      (w = 3 ∧ ∃ i, decode v = .command i ∧ exec i s = .next t) := by
  unfold hostWrite at h
  cases hs : slotAt w with
  | cmd =>
    have hw : w = 3 := by
      unfold slotAt at hs
      split_ifs at hs
      assumption
    simp only [hs, unlessBusy_idle _ hp, issueWord] at h
    cases hd : decode v with
    | command i =>
      simp only [hd] at h
      exact .inr (.inr (.inr (.inr (.inr (.inr (.inr (.inr ⟨hw, i, rfl, h⟩)))))))
    | illegal why =>
      simp only [hd, Host.Outcome.next.injEq] at h
      exact .inr (.inr (.inr (.inr (.inr (.inr (.inr (.inl ⟨hw, why, rfl, h.symm⟩)))))))
  | buf b i =>
    simp only [hs, unlessBusy_idle _ hp, Host.Outcome.next.injEq] at h
    exact .inr (.inr (.inr (.inr (.inr (.inr (.inl ⟨b, i, rfl, h.symm⟩))))))
  | _ =>
    simp only [hs, unlessBusy_idle _ hp, Host.Outcome.next.injEq] at h
    simp only [h.symm, true_or, or_true]

/-- Everything but the write of a command is performed whatever the state. -/
theorem hostWrite_stops {w : Nat} {v : Word} {s : State} (h : ∀ t, hostWrite w v s ≠ .next t) :
    s.phase = .idle ∧ w = 3 ∧ ∃ i, decode v = .command i ∧ hostWrite w v s = exec i s := by
  unfold hostWrite at h ⊢
  cases hs : slotAt w with
  | cmd =>
    have hw : w = 3 := by
      unfold slotAt at hs
      split_ifs at hs
      assumption
    cases hp : s.phase with
    | idle =>
      cases hd : decode v with
      | command i => exact ⟨rfl, hw, i, rfl, by simp [unlessBusy, hp, issueWord, hd]⟩
      | illegal why => simp [hs, unlessBusy, hp, issueWord, hd] at h
    | busy j => simp [hs, unlessBusy, hp] at h
  | _ => cases hp : s.phase <;> simp [hs, unlessBusy, hp] at h

/-! ### The slots of the window (R37, R38) -/

theorem slotAt_status {w : Nat} (h : slotAt w = .status) : w = 2 := by
  unfold slotAt at h
  split_ifs at h
  assumption

theorem slotAt_cmd {w : Nat} (h : slotAt w = .cmd) : w = 3 := by
  unfold slotAt at h
  split_ifs at h
  assumption

theorem slotAt_len {w : Nat} (h : slotAt w = .len) : w = 4 := by
  unfold slotAt at h
  split_ifs at h
  assumption

theorem slotAt_outLen {w : Nat} (h : slotAt w = .outLen) : w = 5 := by
  unfold slotAt at h
  split_ifs at h
  assumption

theorem slotAt_keyLen {w : Nat} (h : slotAt w = .keyLen) : w = 6 := by
  unfold slotAt at h
  split_ifs at h
  assumption

/-- Which slots a locked offset can be (R77): the ones whose writes `unlessBusy` guards. -/
theorem slotAt_locked {off : Nat} (h : lockedOffset off) : wordAccess off 4 = true ∧
    (slotAt (off / 4) = .cmd ∨ slotAt (off / 4) = .len ∨ slotAt (off / 4) = .outLen ∨ slotAt (off / 4) = .keyLen ∨
      ∃ b n, slotAt (off / 4) = .buf b n) := by
  unfold lockedOffset at h
  refine ⟨wordAccess_iff.2 ⟨rfl, h.1, by omega⟩, ?_⟩
  unfold slotAt
  split_ifs <;> first | (exfalso; omega) | simp

/-- A reserved offset is a word access and its slot is reserved. -/
theorem slotAt_reserved {off : Nat} (h : reservedOffset off) :
    slotAt (off / 4) = .reserved ∧ wordAccess off 4 = true := by
  unfold reservedOffset at h
  refine ⟨?_, wordAccess_iff.2 ⟨rfl, h.1, by omega⟩⟩
  unfold slotAt
  split_ifs <;> first | rfl | (exfalso; omega)

/-- The address of a buffer word is a word access to that word's slot. -/
theorem slotAt_wordAddr {b : Target} {n : Nat} (h : n < bufWords b) :
    slotAt (wordAddr b n / 4) = .buf b n ∧ wordAccess (wordAddr b n) 4 = true := by
  cases b <;> simp only [bufWords, Config.kbuf, Config.nbuf] at h <;> simp only [wordAddr, bufBase]
  · refine ⟨?_, wordAccess_iff.2 ⟨rfl, by omega, by omega⟩⟩
    obtain ⟨w, hw, hn⟩ : ∃ w, (0x020 + 4 * n) / 4 = w ∧ n = w - 8 := ⟨_, rfl, by omega⟩
    have : 8 ≤ w ∧ w ≤ 11 := by omega
    rw [hw, hn]
    unfold slotAt
    split_ifs <;> first | (exfalso; omega) | rfl
  · refine ⟨?_, wordAccess_iff.2 ⟨rfl, by omega, by omega⟩⟩
    obtain ⟨w, hw, hn⟩ : ∃ w, (0x100 + 4 * n) / 4 = w ∧ n = w - 64 := ⟨_, rfl, by omega⟩
    have : 64 ≤ w ∧ w ≤ 115 := by omega
    rw [hw, hn]
    unfold slotAt
    split_ifs <;> first | (exfalso; omega) | rfl

theorem hostRead_buf {w : Nat} {s : State} {b : Target} {n : Nat} (h : slotAt w = .buf b n) :
    hostRead w s = readBuffer s b n := by rw [hostRead, h]

theorem hostRead_reserved {w : Nat} {s : State} (h : slotAt w = .reserved) :
    hostRead w s = .next (s.returning 0#32) := by rw [hostRead, h]

theorem readBuffer_idle {s : State} {b : Target} {n : Nat} (h : s.phase = .idle) :
    readBuffer s b n = match s.word b n with
      | none => .fault .unwrittenRead
      | some w => .next (s.returning w) := by
  unfold readBuffer
  split
  · simp_all
  · rfl

theorem readBuffer_busy {s : State} {b : Target} {n : Nat} {i : Instr} (h : s.phase = .busy i) :
    readBuffer s b n = .next { s.returning (Config.freeWord s.draws) with draws := s.draws + 1 } := by
  unfold readBuffer
  split
  · rfl
  · simp_all

theorem hostWrite_reserved {w : Nat} {v : Word} {s : State} (h : slotAt w = .reserved) : hostWrite w v s = .next s := by
  rw [hostWrite, h]

theorem hostWrite_buf {w : Nat} {v : Word} {s : State} {b : Target} {n : Nat} (h : slotAt w = .buf b n) :
    hostWrite w v s = unlessBusy s fun s => .next { s with mem := writeWord s.mem (wordAddr b n) v } := by
  rw [hostWrite, h]

/-! ### A step -/

/-- Everything a step can answer as a next state, by the event it performs. -/
theorem step_next {s t : State} (h : step s = .next t) :
    (∃ off size, s.nextEvent = .read off size ∧ wordAccess off size = true ∧ hostRead (off / 4) s.advance = .next t) ∨
    (∃ off size v, s.nextEvent = .write off size v ∧ wordAccess off size = true ∧
      hostWrite (off / 4) v s.advance = .next t) ∨
    (s.nextEvent = .completion ∧ s.phase = .idle ∧ t = s.advance) ∨
    (∃ i, s.nextEvent = .completion ∧ s.phase = .busy i ∧ exec i s.advance = .next t) ∨
    (s.nextEvent = .reset ∧ t = resetBlock s.advance) := by
  unfold step at h
  cases he : s.nextEvent with
  | read off size =>
    simp only [he, perform] at h
    split at h
    · exact .inl ⟨off, size, rfl, ‹_›, h⟩
    · cases h
  | write off size v =>
    simp only [he, perform] at h
    split at h
    · exact .inr (.inl ⟨off, size, v, rfl, ‹_›, h⟩)
    · cases h
  | completion =>
    simp only [he, perform, coreStep] at h
    cases hp : s.phase with
    | idle =>
      simp only [advance_phase, hp, Host.Outcome.next.injEq] at h
      exact .inr (.inr (.inl ⟨rfl, rfl, h.symm⟩))
    | busy i =>
      simp only [advance_phase, hp] at h
      exact .inr (.inr (.inr (.inl ⟨i, rfl, rfl, h⟩)))
  | reset =>
    simp only [he, perform, Host.Outcome.next.injEq] at h
    exact .inr (.inr (.inr (.inr ⟨rfl, h.symm⟩)))

theorem step_read {s : State} {off size : Nat} (h : s.nextEvent = .read off size) :
    step s = if wordAccess off size then hostRead (off / 4) s.advance else .refused .notAWordAccess := by
  simp [step, h, perform]

theorem step_write {s : State} {off size : Nat} {v : Word} (h : s.nextEvent = .write off size v) :
    step s = if wordAccess off size then hostWrite (off / 4) v s.advance else .refused .notAWordAccess := by
  simp [step, h, perform]

theorem step_completion {s : State} (h : s.nextEvent = .completion) : step s = coreStep s.advance := by
  simp [step, h, perform]

theorem step_reset {s : State} (h : s.nextEvent = .reset) : step s = .next (resetBlock s.advance) := by
  simp [step, h, perform]

end Sys2Proof.Machine
end

