-- ==== Sys2Proof/Tests/Slice0.lean ====
section
/-! SUPPORT. Small tests whose expected values come from spec/95_test_vectors.md and spec/30_encoding.md, and for every
statement with hypotheses a named witness that meets them. -/

namespace Sys2Proof.Tests

open Sys2Proof.Machine

/-! ### Helpers -/

/-- The key of ENC-1. -/
def key1 : List Word := [0x00010203#32, 0x04050607#32, 0x08090A0B#32, 0x0C0D0E0F#32]

/-- The canonical key of SRC-1. -/
def asciiKey : List Word := [0x30313233#32, 0x34353637#32, 0x38394142#32, 0x43444546#32]

/-- The data of ADP-1 to ADP-6: five words of the command and one beyond. -/
def adpData : List Word :=
  [0x00010203#32, 0x04050607#32, 0x08090A0B#32, 0x0C0D0E0F#32, 0x10111213#32, 0xAAAAAAAA#32]

/-- Every word of DATA written. -/
def fullData : List Word := List.replicate 52 0x01020304#32

/-- An idle block: `kb` in KEYBUF and loaded as the key, `data` in DATA, LEN = OUT_LEN = `len`, KEY_LEN = 16. -/
def bench (kb data : List Word) (len : Word) : State := { State.reset with
  key := keyOfWords kb
  keyValid := true
  mem := writeWords (writeWords [] (bufBase .keybuf) kb) (bufBase .data) data
  len := len
  outLen := len
  keyLen := 16#32 }

/-- The block of ENC-1. -/
def enc1 : State := bench key1 [0#32, 0#32, 0#32] 12#32

/-- The block of ADP-1 to ADP-6. -/
def adp : State := bench asciiKey adpData 20#32

/-- The longest block. -/
def full : State := bench asciiKey fullData 208#32

/-- The core busy with a command. -/
def running (i : Instr) (s : State) : State := { s with phase := .busy i }

/-- The events the host and the core bring next. -/
def receiving (es : List Event) (s : State) : State := { s with pending := es }

/-- A result is a next state with a property. -/
def answers (r : Result) (p : State → Bool) : Bool :=
  match r with
  | .next s => p s
  | .fault _ => false
  | .refused _ => false

theorem next_of_answers {r : Result} {p : State → Bool} (h : answers r p = true) : ∃ t, r = .next t ∧ p t = true := by
  cases r with
  | next t => exact ⟨t, rfl, h⟩
  | fault f => cases h
  | refused e => cases h

theorem exists_next {r : Result} (h : answers r (fun _ => true) = true) : ∃ t, r = .next t := by
  obtain ⟨t, ht, -⟩ := next_of_answers h
  exact ⟨t, ht⟩

/-- A result is the fault of R29. -/
def faults (r : Result) : Bool :=
  match r with
  | .next _ => false
  | .fault _ => true
  | .refused _ => false

/-- A result is a refusal of the access. -/
def refuses (r : Result) : Bool :=
  match r with
  | .next _ => false
  | .fault _ => false
  | .refused e => e == .notAWordAccess

/-! ### Decoding (spec/30_encoding.md R63; spec/95_test_vectors.md CMD and ERR) -/

theorem test_decode_keyset : decode 0b00000000000000000000000000000001#32 = .command .keyset := by decide

theorem test_decode_enc : decode 0b00000000000000000000000000000010#32 = .command .enc := by decide

theorem test_decode_dec : decode 0b00000000000000000000000000000011#32 = .command .dec := by decide

theorem test_decode_revw : decode 0b00000000000000000000000000000100#32 = .command (.revw .keybuf) ∧
    decode 0b00000000000000000000000000010100#32 = .command (.revw .data) := by decide

theorem test_decode_revb : decode 0b00000000000000000000000000000101#32 = .command (.revb .keybuf) ∧
    decode 0b00000000000000000000000000010101#32 = .command (.revb .data) := by decide

theorem test_decode_reva : decode 0b00000000000000000000000000000110#32 = .command (.reva .keybuf) ∧
    decode 0b00000000000000000000000000010110#32 = .command (.reva .data) := by decide

/-- ERR-1 to ERR-8: each word is Illegal, for the reason shown. -/
theorem test_decode_illegal : decode 0x00000000#32 = .illegal .unassignedOp ∧
    decode 0x00000007#32 = .illegal .unassignedOp ∧ decode 0x0000000F#32 = .illegal .unassignedOp ∧
    decode 0x00000011#32 = .illegal .targetOnFixedCommand ∧ decode 0x00000012#32 = .illegal .targetOnFixedCommand ∧
    decode 0x00000022#32 = .illegal .reservedBits ∧ decode 0x80000002#32 = .illegal .reservedBits ∧
    decode 0x00000017#32 = .illegal .unassignedOp := by decide

/-! ### WellFormed: every command is well formed; an access is refused by each check of R40 -/

theorem test_wf_command : Instr.wf (.revw .data) = true ∧ wordAccess 0x1FC 4 = true := by decide

theorem test_wf_refuses_size : wordAccess 0x00C 2 = false := by decide

theorem test_wf_refuses_alignment : wordAccess 0x00E 4 = false := by decide

theorem test_wf_refuses_outside_window : wordAccess 0x200 4 = false := by decide

/-! ### KEYSET -/

/-- KEY-1, from a block with no key: K = KB, KEY_VALID = 1, STATUS = 6 after completion. -/
theorem test_keyset_loads : answers (exec .keyset (running .keyset { bench asciiKey [] 0#32 with
      key := ⟨0#32, 0#32, 0#32, 0#32⟩, keyValid := false }))
    (fun t => t.key == ⟨0x30313233#32, 0x34353637#32, 0x38394142#32, 0x43444546#32⟩ &&
      t.statusWord == 0x00000006#32) = true := by decide +kernel

/-- KEY-5 and KEY-2: all 32 bits of KEY_LEN are compared; a zero key is rejected and the old key stays. -/
theorem test_keyset_rejects :
    answers (exec .keyset { bench asciiKey [] 0#32 with keyLen := 0x00000110#32 }) (fun t => t.err == 1#4) = true ∧
      answers (exec .keyset { bench [0#32, 0#32, 0#32, 0#32] [] 0#32 with key := keyOfWords asciiKey })
        (fun t => t.statusWord == 0x00000206#32 && t.key == keyOfWords asciiKey) = true := by decide +kernel

/-! ### ENC and DEC -/

/-- ENC-1. -/
theorem test_enc_1 : answers (exec .enc (running .enc enc1))
    (fun t => t.words .data 3 == some [0xFD0456E0#32, 0x418CC284#32, 0xCA8C213C#32]) = true := by decide +kernel

/-- ERR-10: the first check that fails names the error. -/
theorem test_enc_first_check : answers (exec .enc { State.reset with len := 8#32, outLen := 16#32 })
    (fun t => t.statusWord == 0x00000302#32) = true := by decide

/-- DEC-3. -/
theorem test_dec_3 : answers (exec .dec (running .dec enc1))
    (fun t => t.words .data 3 == some [0x4AA04854#32, 0xA54549A7#32, 0x9B4BAB23#32]) = true := by decide +kernel

/-- ERR-11: LengthMismatch comes before NoKey. -/
theorem test_dec_mismatch_before_nokey : answers (exec .dec { State.reset with len := 16#32, outLen := 12#32 })
    (fun t => t.statusWord == 0x00000402#32) = true := by decide

/-! ### REVW, REVB, REVA -/

/-- ADP-1: the word beyond G stays. -/
theorem test_revw_data : answers (exec (.revw .data) (running (.revw .data) adp)) (fun t => t.words .data 6 ==
    some [0x10111213#32, 0x0C0D0E0F#32, 0x08090A0B#32, 0x04050607#32, 0x00010203#32, 0xAAAAAAAA#32]) = true := by
  decide +kernel

/-- ADP-17: only the G = 2 words of KEY_LEN = 8 move. -/
theorem test_revw_keybuf : answers (exec (.revw .keybuf) (running (.revw .keybuf) { adp with keyLen := 8#32 }))
    (fun t => t.words .keybuf 4 == some [0x34353637#32, 0x30313233#32, 0x38394142#32, 0x43444546#32]) = true := by
  decide +kernel

/-- ADP-2. -/
theorem test_revb_data : answers (exec (.revb .data) (running (.revb .data) adp)) (fun t => t.words .data 6 ==
    some [0x03020100#32, 0x07060504#32, 0x0B0A0908#32, 0x0F0E0D0C#32, 0x13121110#32, 0xAAAAAAAA#32]) = true := by
  decide +kernel

/-- ERR-16. -/
theorem test_revb_short : answers (exec (.revb .keybuf) { adp with keyLen := 3#32 })
    (fun t => t.statusWord == 0x00000506#32) = true := by decide +kernel

/-- ADP-3. -/
theorem test_reva_data : answers (exec (.reva .data) (running (.reva .data) adp)) (fun t => t.words .data 6 ==
    some [0x13121110#32, 0x0F0E0D0C#32, 0x0B0A0908#32, 0x07060504#32, 0x03020100#32, 0xAAAAAAAA#32]) = true := by
  decide +kernel

/-- ADP-14: above the capacity of DATA. -/
theorem test_reva_long : answers (exec (.reva .data) { full with len := 212#32 }) (fun t => t.err == 5#4) = true := by
  decide +kernel

/-! ### The host port -/

/-- HOST-6: DONE and OVR are cleared, ERR and KEY_VALID are read-only. -/
theorem test_status_write : answers (step (receiving [.write 0x008 4 0xFFFFFFFF#32]
      { enc1 with err := 3#4, done := true, ovr := true })) (fun t => t.statusWord == 0x00000304#32) = true := by
  decide +kernel

/-- HOST-9: a write of LEN while busy is dropped and sets OVR. -/
theorem test_busy_write_dropped : answers (step (receiving [.write 0x010 4 16#32] (running .enc enc1)))
    (fun t => t.len == 12#32 && t.ovr) = true := by decide +kernel

/-- HOST-7: DATA is unwritten right after reset. -/
theorem test_read_after_reset : faults (step (receiving [.read 0x100 4] State.reset)) = true := by decide

/-- R40: an access that is no word access is refused. -/
theorem test_refused_access : refuses (step (receiving [.read 0x00E 4] State.reset)) = true := by decide

/-- A command placed from reset runs: KEYSET with KEY_LEN = 0 is rejected with ERR = 1 (KEY-4's rule). -/
theorem test_placed_from_reset : answers (step (State.reset.withFetchWord 32 1)) (fun t => t.err == 1#4) = true := by
  decide

/-! ### Witnesses: encoding and steps -/

theorem witness_ExactlyNineWordsDecode : ∀ p ∈ commandTable, (0x00000011#32 : Word) ≠ p.1 := by decide

theorem witness_IllegalWordsRaiseIllegalCommand : ∃ s : State, s.phase = .idle ∧
    s.nextEvent = .write 0x00C 4 0x00000007#32 ∧ illegalWord 0x00000007#32 ∧ illegalWord 0x00000011#32 ∧
    illegalWord 0x00000022#32 :=
  ⟨receiving [.write 0x00C 4 0x00000007#32] State.reset, rfl, rfl, by decide, by decide, by decide⟩

theorem witness_StepRunsTheDecodedCommand_issue : ∃ s : State, s.phase = .idle ∧
    s.nextEvent = .write 0x00C 4 0x00000002#32 ∧ decode 0x00000002#32 = .command .enc :=
  ⟨receiving [.write 0x00C 4 0x00000002#32] enc1, rfl, rfl, by decide⟩

theorem witness_StepRunsTheDecodedCommand_completion : ∃ s : State, s.phase = .busy .enc ∧ s.nextEvent = .completion :=
  ⟨running .enc enc1, rfl, rfl⟩

theorem witness_IdleBlockWaits : State.reset.phase = .idle ∧ State.reset.pending = [] := by decide

/-! ### Witnesses: issue -/

theorem witness_Acceptance_keyset : enc1.phase = .idle ∧ Accepts enc1 .keyset :=
  ⟨rfl, rfl, 0x00010203#32, 0x04050607#32, 0x08090A0B#32, 0x0C0D0E0F#32, by decide +kernel, by decide +kernel,
    by decide +kernel, by decide +kernel, by decide⟩

theorem witness_Acceptance_cipher : enc1.phase = .idle ∧ Accepts enc1 .enc ∧ full.phase = .idle ∧ Accepts full .dec :=
  ⟨rfl, ⟨by decide, rfl, rfl⟩, rfl, by decide, rfl, rfl⟩

theorem witness_Acceptance_adapter : full.phase = .idle ∧ Accepts full (.revw .data) ∧ Accepts full (.revb .keybuf) ∧
    Accepts { full with len := 4#32 } (.reva .data) :=
  ⟨rfl, by unfold Accepts; decide, by unfold Accepts; decide, by unfold Accepts; decide⟩

theorem witness_KeysetChecks_length : { enc1 with keyLen := 15#32 }.phase = .idle ∧
    { enc1 with keyLen := 15#32 }.keyLen ≠ 16#32 := by decide

theorem witness_KeysetChecks_unwritten : ∃ s : State, s.phase = .idle ∧ s.keyLen = 16#32 ∧
    ∃ n, n < 4 ∧ s.written .keybuf n = false :=
  ⟨bench [1#32, 2#32, 3#32] [] 0#32, rfl, rfl, 3, by decide, by decide +kernel⟩

theorem witness_KeysetChecks_zero : ∃ s : State, s.phase = .idle ∧ s.keyLen = 16#32 ∧ s.word .keybuf 0 = some 0#32 ∧
    s.word .keybuf 1 = some 0#32 ∧ s.word .keybuf 2 = some 0#32 ∧ s.word .keybuf 3 = some 0#32 :=
  ⟨bench [0#32, 0#32, 0#32, 0#32] [] 0#32, rfl, rfl, by decide +kernel, by decide +kernel, by decide +kernel,
    by decide +kernel⟩

theorem witness_CipherChecks_range : (8#32 : Word).toNat < 12 ∧ 208 < (212#32 : Word).toNat ∧
    (13#32 : Word).toNat % 4 ≠ 0 ∧ { enc1 with len := 8#32 }.phase = .idle := by decide

theorem witness_CipherChecks_mismatch : ∃ s : State, s.phase = .idle ∧ s.legalBlock ∧ s.outLen ≠ s.len :=
  ⟨{ full with outLen := 12#32 }, rfl, by decide, by decide⟩

theorem witness_CipherChecks_noKey : ∃ s : State, s.phase = .idle ∧ s.legalBlock ∧ s.outLen = s.len ∧
    s.keyValid = false :=
  ⟨{ enc1 with keyValid := false }, rfl, by decide, rfl, rfl⟩

theorem witness_AdapterChecksLength : (3#32 : Word).toNat < 4 ∧ (6#32 : Word).toNat % 4 ≠ 0 ∧
    16 < { full with keyLen := 20#32 }.keyLen.toNat ∧ 208 < { full with len := 212#32 }.len.toNat ∧
    { full with len := 212#32 }.phase = .idle := by decide

theorem witness_RejectionIsPrecise : ∃ s t : State, s.phase = .idle ∧ s.nextEvent = .write 0x00C 4 0#32 ∧
    step s = .next t ∧ t.phase = .idle :=
  ⟨receiving [.write 0x00C 4 0#32] State.reset, _, rfl, rfl, rfl, rfl⟩

/-! ### Witnesses: completion -/

theorem witness_KeysetLoadsTheKey : ∃ s : State, s.phase = .busy .keyset ∧ s.word .keybuf 0 = some 0x30313233#32 ∧
    s.word .keybuf 1 = some 0x34353637#32 ∧ s.word .keybuf 2 = some 0x38394142#32 ∧
    s.word .keybuf 3 = some 0x43444546#32 :=
  ⟨running .keyset full, rfl, by decide +kernel, by decide +kernel, by decide +kernel, by decide +kernel⟩

theorem witness_KeyWordsAreBigEndian : ∃ s t : State, s.phase = .busy .keyset ∧ exec .keyset s = .next t := by
  obtain ⟨t, ht⟩ := exists_next (r := exec .keyset (running .keyset adp)) (by decide +kernel)
  exact ⟨_, t, rfl, ht⟩

theorem witness_EncIsItsChainOfUpdates : ∃ s : State, s.phase = .busy .enc ∧ s.legalBlock ∧
    s.words .data (s.len.toNat / 4) = some [0#32, 0#32, 0#32] :=
  ⟨running .enc enc1, rfl, by decide, by decide +kernel⟩

theorem witness_DecIsItsChainOfUpdates : ∃ s : State, s.phase = .busy .dec ∧ s.legalBlock ∧
    s.words .data (s.len.toNat / 4) = some fullData :=
  ⟨running .dec full, rfl, by decide, by decide +kernel⟩

theorem witness_CipherWritesOnlyTheBlock : (∃ s t : State, s.phase = .busy .enc ∧ exec .enc s = .next t) ∧
    ∃ s t : State, s.phase = .busy .dec ∧ exec .dec s = .next t := by
  obtain ⟨t, ht⟩ := exists_next (r := exec .enc (running .enc enc1)) (by decide +kernel)
  obtain ⟨u, hu⟩ := exists_next (r := exec .dec (running .dec enc1)) (by decide +kernel)
  exact ⟨⟨_, t, rfl, ht⟩, _, u, rfl, hu⟩

theorem witness_RevwReversesWordOrder : ∃ s : State, s.phase = .busy (.revw .data) ∧ s.operandsWritten (.revw .data) ∧
    s.groups .data = 5 :=
  ⟨running (.revw .data) adp, rfl, by decide +kernel, by decide⟩

theorem witness_RevbReversesBytesPerWord : ∃ s : State, s.phase = .busy (.revb .keybuf) ∧
    s.operandsWritten (.revb .keybuf) ∧ s.groups .keybuf = 4 :=
  ⟨running (.revb .keybuf) adp, rfl, by decide +kernel, by decide⟩

theorem witness_RevaReversesWhole : ∃ s : State, s.phase = .busy (.reva .data) ∧ s.operandsWritten (.reva .data) ∧
    s.groups .data = 52 :=
  ⟨running (.reva .data) full, rfl, by decide +kernel, by decide⟩

theorem witness_AdapterIsAnInvolution : ∃ s : State, s.phase = .busy (.revw .keybuf) ∧ s.legalLayout .keybuf ∧
    s.operandsWritten (.revw .keybuf) :=
  ⟨running (.revw .keybuf) adp, rfl, by decide, by decide +kernel⟩

theorem witness_RevaIsBothCompositions : adp.legalLayout .data ∧ adp.operandsWritten (.reva .data) :=
  ⟨by decide, by decide +kernel⟩

theorem witness_DecAndEncUndoEachOther : ∃ s : State, s.phase = .busy .enc ∧ Accepts s .enc ∧ s.operandsWritten .enc :=
  ⟨running .enc full, rfl, ⟨by decide, rfl, rfl⟩, by decide +kernel⟩

theorem witness_DecAndEncUndoEachOther_dec : ∃ s : State, s.phase = .busy .dec ∧ Accepts s .dec ∧
    s.operandsWritten .dec :=
  ⟨running .dec enc1, rfl, ⟨by decide, rfl, rfl⟩, by decide +kernel⟩

theorem witness_NoMixerStateSurvives : (running .dec full).phase = .busy .dec ∧ (running .dec full).legalBlock :=
  ⟨rfl, by decide⟩

theorem witness_RoundCountsAndInitialSums : 3 ∈ List.range 53 ∧ 52 ∈ List.range 53 ∧ 3 ≤ 3 ∧ 3 ≤ 52 := by decide

/-! ### Witnesses: the host port -/

theorem witness_HostReadReturnsTheSlot_slots : ∀ off ∈ [0x000, 0x004, 0x008, 0x00C, 0x010, 0x014, 0x018],
    (receiving [.read off 4] State.reset).nextEvent = .read off 4 := fun _ _ => rfl

theorem witness_HostReadReturnsTheSlot_reserved :
    reservedOffset 0x01C ∧ reservedOffset 0x030 ∧ reservedOffset 0x0FC ∧ reservedOffset 0x1D0 ∧ reservedOffset 0x1FC := by
  decide

theorem witness_HostReadReturnsTheSlot_buffers : ∃ s : State, s.phase = .idle ∧
    s.nextEvent = .read (wordAddr .data 51) 4 ∧ 51 < bufWords .data ∧ s.word .data 51 = some 0x01020304#32 :=
  ⟨receiving [.read 0x1CC 4] full, rfl, rfl, by decide, by decide +kernel⟩

theorem witness_HostReadReturnsTheSlot_unwritten : ∃ s : State, s.phase = .idle ∧
    s.nextEvent = .read (wordAddr .keybuf 3) 4 ∧ 3 < bufWords .keybuf ∧ s.written .keybuf 3 = false :=
  ⟨receiving [.read 0x02C 4] State.reset, rfl, rfl, by decide, by decide⟩

theorem witness_HostReadReturnsTheSlot_busy : ∃ s : State, s.phase = .busy .enc ∧
    s.nextEvent = .read (wordAddr .data 0) 4 :=
  ⟨receiving [.read 0x100 4] (running .enc enc1), rfl, rfl⟩

theorem witness_IdleWriteStores : ∀ off ∈ [0x000, 0x004, 0x008, 0x010, 0x014, 0x018, 0x01C, 0x1FC],
    (receiving [.write off 4 5#32] full).phase = .idle ∧
      (receiving [.write off 4 5#32] full).nextEvent = .write off 4 5#32 := fun _ _ => ⟨rfl, rfl⟩

theorem witness_IdleWriteStores_buffers : wordAddr .keybuf 0 = 0x020 ∧ wordAddr .keybuf 3 = 0x02C ∧
    wordAddr .data 0 = 0x100 ∧ wordAddr .data 51 = 0x1CC ∧ 3 < bufWords .keybuf ∧ 51 < bufWords .data := by decide

theorem witness_BusyLocksOutWrites : ∀ off ∈ [0x00C, 0x018, 0x020, 0x02C, 0x100, 0x1CC], lockedOffset off ∧
    ¬reservedOffset off ∧ (receiving [.write off 4 5#32] (running .enc enc1)).nextEvent = .write off 4 5#32 ∧
    (receiving [.write off 4 5#32] (running .enc enc1)).phase = .busy .enc := by decide

/-- No offset falls under two clauses of a write while busy. -/
theorem witness_BusyLocksOutWrites_disjoint (off : Nat) : lockedOffset off → ¬reservedOffset off ∧ off ≠ 0x000 ∧
    off ≠ 0x004 ∧ off ≠ 0x008 := by
  unfold lockedOffset reservedOffset
  omega

theorem witness_BusyLocksOutWrites_open : ∀ off ∈ [0x000, 0x004, 0x008, 0x01C],
    (receiving [.write off 4 5#32] (running .enc enc1)).nextEvent = .write off 4 5#32 := fun _ _ => rfl

theorem witness_ReservedReadsZeroIgnoresWrites : ∃ s : State, reservedOffset 0x1D0 ∧
    s.nextEvent = .write 0x1D0 4 0xFFFFFFFF#32 ∧ (0xFFFFFFFE#32 : Word).getLsbD 0 = (0x0#32 : Word).getLsbD 0 ∧
    (0xFFFFFFF5#32 : Word).getLsbD 1 = (0x0#32 : Word).getLsbD 1 ∧
    (0xFFFFFFF5#32 : Word).getLsbD 3 = (0x0#32 : Word).getLsbD 3 :=
  ⟨receiving [.write 0x1D0 4 0xFFFFFFFF#32] (running .enc enc1), by decide, rfl, by decide, by decide, by decide⟩

/-- The three faults of `Obligations.FaultsExactlyOnUnwrittenReads` occur (HOST-7, KEY-3, program P6's kind). -/
theorem witness_FaultsExactlyOnUnwrittenReads : faults (step (receiving [.read 0x1CC 4] State.reset)) = true ∧
    faults (step (receiving [.write 0x00C 4 1#32] { State.reset with keyLen := 16#32 })) = true ∧
    faults (step (running .enc { State.reset with len := 12#32 })) = true := by decide

theorem witness_RefusesExactlyOtherAccesses : refuses (step (receiving [.write 0x200 4 1#32] State.reset)) = true ∧
    refuses (step (receiving [.read 0x000 1] (running .enc enc1))) = true := by decide

/-! ### Witnesses: the key -/

theorem witness_KeyChanges_keyset : ∃ s t : State, step s = .next t ∧ t.key ≠ s.key ∧ t.keyValid ≠ s.keyValid := by
  obtain ⟨t, ht, hp⟩ := next_of_answers
    (r := step (running .keyset { adp with key := ⟨0#32, 0#32, 0#32, 0#32⟩, keyValid := false }))
    (p := fun t => t.key != ⟨0#32, 0#32, 0#32, 0#32⟩ && t.keyValid) (by decide +kernel)
  simp only [Bool.and_eq_true, bne_iff_ne] at hp
  exact ⟨_, t, ht, hp.1, by rw [hp.2]; decide⟩

theorem witness_KeyChanges_reset : ∃ s t : State, step s = .next t ∧ t.key ≠ s.key ∧ t.keyValid ≠ s.keyValid :=
  ⟨receiving [.reset] enc1, _, rfl, by decide +kernel, by decide +kernel⟩

theorem witness_HostReadsDoNotRevealTheKey : ∃ s t u v : State, s.nextEvent = .read 0x008 4 ∧ step s = .next t ∧
    u.nextEvent = .read 0x100 4 ∧ step u = .fault .unwrittenRead ∧ v.nextEvent = .read 0x200 4 ∧
    step v = .refused .notAWordAccess :=
  ⟨receiving [.read 0x008 4] State.reset, _, receiving [.read 0x100 4] State.reset,
    receiving [.read 0x200 4] State.reset, rfl, rfl, rfl, rfl, rfl, rfl⟩

/-- Running from a reachable state stays reachable. -/
theorem reachable_run {k : Nat} {s t : State} (hs : Reachable s) (h : Host.Core.run Sys2Proof.core k s = .next t) :
    Reachable t := by
  induction k generalizing s with
  | zero =>
    cases h
    exact hs
  | succ k ih =>
    simp only [Host.Core.run] at h
    split at h
    · exact ih (.next hs ‹_›) h
    · cases h
    · cases h

/-- Lines 1 to 7 of program P1: a key is loaded from reset. -/
theorem witness_ValidKeyIsNeverZero : ∃ s : State, Reachable s ∧ s.keyValid = true := by
  obtain ⟨t, ht, hk⟩ := next_of_answers (p := State.keyValid)
    (r := Host.Core.run Sys2Proof.core 7 (receiving [.write 0x020 4 0x00010203#32, .write 0x024 4 0x04050607#32,
      .write 0x028 4 0x08090A0B#32, .write 0x02C 4 0x0C0D0E0F#32, .write 0x018 4 16#32, .write 0x00C 4 1#32] State.reset))
    (by decide +kernel)
  exact ⟨t, reachable_run (.start _) ht, hk⟩

/-! ### Witnesses: the busy window, the interrupt, reset, the invariant -/

theorem witness_InputsAreStableWhileBusy : ∃ s t : State, s.phase = .busy .enc ∧ s.nextEvent ≠ .completion ∧
    s.nextEvent ≠ .reset ∧ step s = .next t :=
  ⟨receiving [.write 0x100 4 5#32] (running .enc enc1), _, rfl, by decide, by decide, rfl⟩

/-- A busy state of a run satisfies the invariant. -/
theorem inv_running : State.Inv (running .enc enc1) where
  canonical := by decide +kernel
  inside := by decide +kernel
  whole := by decide +kernel
  errNamed := by decide
  keyNonzero := fun _ => by decide
  accepted := by
    intro i hi
    cases hi
    exact ⟨⟨by decide, rfl, rfl⟩, rfl, rfl⟩

theorem witness_CompletionLeavesStatusInFixedForm : ∃ s t : State, s.Inv ∧ s.phase = .busy .enc ∧
    s.nextEvent = .completion ∧ step s = .next t := by
  obtain ⟨t, ht⟩ := exists_next (r := step (running .enc enc1)) (by decide +kernel)
  exact ⟨_, t, inv_running, rfl, rfl, ht⟩

theorem witness_StepKeepsTheInvariant : ∃ s t : State, s.Inv ∧ step s = .next t := by
  obtain ⟨t, ht⟩ := exists_next (r := step (running .enc enc1)) (by decide +kernel)
  exact ⟨_, t, inv_running, ht⟩

/-- Two busy states that agree on the operands of ENC alone: KEYBUF is written in one and not in the other. -/
theorem witness_EffectsDependOnlyOnTheirOperands_enc : ∃ s t u : State, s.phase = .busy .enc ∧ t.phase = .busy .enc ∧
    s.sameOperands t .enc ∧ exec .enc s = .next u ∧ t.written .keybuf 0 ≠ s.written .keybuf 0 := by
  obtain ⟨u, hu⟩ := exists_next (r := exec .enc (running .enc enc1)) (by decide +kernel)
  exact ⟨running .enc enc1, running .enc { bench [] [0#32, 0#32, 0#32] 12#32 with key := keyOfWords key1 }, u, rfl, rfl,
    ⟨by decide +kernel, by decide +kernel, fun _ => by decide +kernel⟩, hu, by decide +kernel⟩

/-- Two states busy with REVW K that agree on its operands and on neither LEN nor K. -/
theorem witness_EffectsDependOnlyOnTheirOperands_revw : ∃ s t u : State, s.phase = .busy (.revw .keybuf) ∧
    t.phase = .busy (.revw .keybuf) ∧ s.sameOperands t (.revw .keybuf) ∧ exec (.revw .keybuf) s = .next u ∧
    t.len ≠ s.len ∧ t.key ≠ s.key := by
  obtain ⟨u, hu⟩ := exists_next (r := exec (.revw .keybuf) (running (.revw .keybuf) adp)) (by decide +kernel)
  exact ⟨running (.revw .keybuf) adp, running (.revw .keybuf) { adp with len := 0#32, key := keyOfWords key1 }, u, rfl, rfl,
    ⟨by decide +kernel, by decide +kernel, by rintro (h | h) <;> cases h⟩, hu, by decide +kernel, by decide +kernel⟩

/-- Two states busy with KEYSET that agree on KEYBUF and not on DATA. -/
theorem witness_EffectsDependOnlyOnTheirOperands_keyset : ∃ s t u : State, s.phase = .busy .keyset ∧
    t.phase = .busy .keyset ∧ s.sameOperands t .keyset ∧ exec .keyset s = .next u ∧
    t.word .data 0 ≠ s.word .data 0 := by
  obtain ⟨u, hu⟩ := exists_next (r := exec .keyset (running .keyset adp)) (by decide +kernel)
  exact ⟨running .keyset adp, running .keyset (bench asciiKey [] 0#32), u, rfl, rfl,
    ⟨by decide +kernel, by decide +kernel, by rintro (h | h) <;> cases h⟩, hu, by decide +kernel⟩

theorem witness_OverrunChangesOnlyAsStated : (∃ s t : State, step s = .next t ∧ t.ovr = true ∧ s.ovr = false) ∧
    ∃ s t : State, step s = .next t ∧ t.ovr = false ∧ s.ovr = true :=
  ⟨⟨receiving [.write 0x1CC 4 5#32] (running .enc enc1), _, rfl, rfl, rfl⟩,
    receiving [.write 0x008 4 8#32] { enc1 with ovr := true }, _, rfl, rfl, rfl⟩

/-- The premises of the set and clear clauses, a dropped write at the last offset, a write of 8 to STATUS, a reset. -/
theorem witness_OverrunChangesOnlyAsStated_clauses : ∃ s t u : State, s.phase = .busy .enc ∧
    s.nextEvent = .write 0x1CC 4 5#32 ∧ lockedOffset 0x1CC ∧ t.nextEvent = .write 0x008 4 8#32 ∧
    (8#32 : Word).getLsbD 3 = true ∧ u.nextEvent = .reset :=
  ⟨receiving [.write 0x1CC 4 5#32] (running .enc enc1), receiving [.write 0x008 4 8#32] enc1, receiving [.reset] enc1,
    rfl, rfl, by decide, rfl, by decide, rfl⟩

theorem witness_ErrorStaysUntilTheNextCommand : ∃ s t : State, step s = .next t ∧ t.err ≠ s.err :=
  ⟨receiving [.write 0x00C 4 0#32] State.reset, _, rfl, by decide⟩

theorem witness_BusyCommandCompletes : ∃ s : State, s.phase = .busy .enc ∧ s.operandsWritten .enc ∧
    (∀ e ∈ s.pending, plainEvent e) ∧ s.pending ≠ [] := by
  refine ⟨receiving [.read 0x008 4, .write 0x010 4 16#32, .completion] (running .enc enc1), rfl, by decide +kernel, ?_,
    by decide⟩
  intro e he
  simp only [receiving, running, List.mem_cons, List.not_mem_nil, or_false] at he
  rcases he with rfl | rfl | rfl
  · exact (by decide : wordAccess 0x008 4 = true)
  · exact (by decide : wordAccess 0x010 4 = true)
  · trivial

theorem witness_InterruptFollowsEnableAndDone : ∃ s t u v w : State,
    s.nextEvent = .write 0x008 4 2#32 ∧ (2#32 : Word).getLsbD 1 = true ∧ step s = .next t ∧
    u.nextEvent = .write 0x004 4 1#32 ∧ step u = .next v ∧ w.phase = .idle ∧ Accepts w .enc ∧
    exec .enc w = .next (w.accept .enc) := by
  refine ⟨receiving [.write 0x008 4 2#32] { enc1 with irqEn := true, done := true }, _,
    receiving [.write 0x004 4 1#32] { enc1 with done := true }, _, { enc1 with irqEn := true, done := true }, rfl,
    by decide, rfl, rfl, rfl, rfl, ⟨by decide, rfl, rfl⟩, rfl⟩

theorem witness_ResetClearsTheBlock : ∃ s : State, s.nextEvent = .reset ∧ s.phase = .busy .enc :=
  ⟨receiving [.reset] (running .enc enc1), rfl, rfl⟩

theorem witness_InterruptFollowsEnableAndDone_reset : ∃ s t : State, s.nextEvent = .reset ∧ step s = .next t :=
  ⟨receiving [.reset] (running .enc enc1), _, rfl, rfl⟩

end Sys2Proof.Tests
end

section
/-! The decoder reads back what the encoder writes, and only that (spec/30_encoding.md R61–R64). -/

namespace Sys2Proof

/-- R63: the decoder reads every command from the word the encoder gives it. -/
@[simp] theorem decode_encode (i : Instr) : decode (encode i) = .command i := by
  cases i with
  | keyset => rfl
  | enc => rfl
  | dec => rfl
  | revw t => cases t <;> rfl
  | revb t => cases t <;> rfl
  | reva t => cases t <;> rfl

@[simp] theorem bit_targetOfBit (b : Bool) : (targetOfBit b).bit = BitVec.ofBool b := by
  cases b <;> rfl

theorem fixedCommand_eq_command {b : Bool} {i j : Instr} (h : fixedCommand b i = .command j) : b = false ∧ i = j := by
  cases b <;> simp_all [fixedCommand]

/-- The two fields of a word that decodes are those of the command it decodes to (R61, R64). -/
theorem decodeFields_eq_command {op : BitVec 4} {b : Bool} {i : Instr} (h : decodeFields op b = .command i) :
    i.tgt = BitVec.ofBool b ∧ i.op = op := by
  unfold decodeFields at h
  split_ifs at h with h1 h2 h3 h4 h5 h6
  · obtain ⟨rfl, rfl⟩ := fixedCommand_eq_command h
    exact ⟨rfl, h1.symm⟩
  · obtain ⟨rfl, rfl⟩ := fixedCommand_eq_command h
    exact ⟨rfl, h2.symm⟩
  · obtain ⟨rfl, rfl⟩ := fixedCommand_eq_command h
    exact ⟨rfl, h3.symm⟩
  · cases h
    exact ⟨bit_targetOfBit b, h4.symm⟩
  · cases h
    exact ⟨bit_targetOfBit b, h5.symm⟩
  · cases h
    exact ⟨bit_targetOfBit b, h6.symm⟩

/-- A command word is its three fields, RSVD, TGT and OP (R61). -/
theorem word_eq_fields (c : Word) :
    c = c.extractLsb' 5 27 ++ BitVec.ofBool (c.getLsbD 4) ++ c.extractLsb' 0 4 := by
  apply BitVec.eq_of_getLsbD_eq
  intro k hk
  have happ : (c.extractLsb' 5 27 ++ BitVec.ofBool (c.getLsbD 4) ++ c.extractLsb' 0 4).getLsbD k =
      ((c.extractLsb' 5 27 ++ BitVec.ofBool (c.getLsbD 4) : BitVec (27 + 1)) ++ c.extractLsb' 0 4).getLsbD k := rfl
  rw [happ, BitVec.getLsbD_append, BitVec.getLsbD_append]
  by_cases h4 : k < 4
  · simp [h4]
  by_cases h5 : k = 4
  · simp [h5]
  · simp [h4, show ¬k - 4 < 1 by omega, show k - 4 - 1 < 27 by omega, show 5 + (k - 4 - 1) = k by omega]

/-- A word that decodes to a command is that command's encoding (R64). -/
theorem eq_encode_of_decode {c : Word} {i : Instr} (h : decode c = .command i) : c = encode i := by
  unfold decode at h
  split_ifs at h with hr
  obtain ⟨ht, ho⟩ := decodeFields_eq_command h
  rw [word_eq_fields c, hr, ← ht, ← ho]
  rfl

end Sys2Proof
end

section
/-! Where the slots of the window lie (spec/20_memory.md R37): the converses of the laws of the slots. -/

namespace Sys2Proof.Machine

theorem lt_bufWords_of_slotAt {w n : Nat} {b : Target} (h : slotAt w = .buf b n) : n < bufWords b := by
  rcases slotAt_buf h with ⟨rfl, -, hn⟩ | ⟨rfl, -, hn⟩ <;> exact hn

/-- A word access to a buffer's slot is one at the address of that buffer word. -/
theorem offset_eq_wordAddr {off n : Nat} {b : Target} (ha : off % 4 = 0) (h : slotAt (off / 4) = .buf b n) :
    off = wordAddr b n := by
  rcases slotAt_buf h with ⟨rfl, hw, -⟩ | ⟨rfl, hw, -⟩ <;> simp only [wordAddr, bufBase] <;> omega

theorem bufBase_aligned (b : Target) : bufBase b % 4 = 0 := by cases b <;> rfl

/-- The addresses of a buffer's words (R37). -/
theorem inBuffer_of_bufBase {b : Target} {x : Nat} (hlo : bufBase b ≤ x) (hhi : x < bufBase b + 4 * bufWords b) :
    inBuffer x := by
  cases b <;> simp only [bufBase, bufWords, Config.kbuf, Config.nbuf, inBuffer] at * <;> omega

/-- A slot whose writes R77 locks lies at a locked offset. -/
theorem lockedOffset_of_slotAt {w : Nat} (h : slotAt w = .cmd ∨ slotAt w = .len ∨ slotAt w = .outLen ∨
    slotAt w = .keyLen ∨ ∃ b n, slotAt w = .buf b n) : lockedOffset (4 * w) := by
  have hw : (3 ≤ w ∧ w ≤ 6) ∨ (8 ≤ w ∧ w ≤ 11) ∨ (64 ≤ w ∧ w ≤ 115) := by
    rcases h with h | h | h | h | ⟨b, n, h⟩
    · have := slotAt_cmd h; omega
    · have := slotAt_len h; omega
    · have := slotAt_outLen h; omega
    · have := slotAt_keyLen h; omega
    · have := slotAt_buf h; omega
  unfold lockedOffset
  omega

end Sys2Proof.Machine
end

section
/-! What a command answers in each of its two steps (spec/40_command_cycle.md R74, R76). -/

namespace Sys2Proof.Machine

/-- An issue while idle accepts its command or rejects it (R74). -/
theorem exec_idle_next {i : Instr} {s t : State} (hp : s.phase = .idle) (h : exec i s = .next t) :
    (Accepts s i ∧ t = s.accept i) ∨ ∃ e, t = s.raise e := by
  rcases exec_next h with ⟨-, ha, rfl⟩ | ⟨-, -, e, rfl⟩ | ⟨j, u, hb, -⟩
  · exact .inl ⟨ha, rfl⟩
  · exact .inr ⟨e, rfl⟩
  · rw [hp] at hb
    cases hb

/-- A command that completes has had its effect, and its phase ends (R76). -/
theorem exec_completes {i j : Instr} {s t : State} (hp : s.phase = .busy j) (h : exec i s = .next t) :
    ∃ u, effect i s = .next u ∧ t = u.finish :=
  complete_next (exec_busy i hp ▸ h)

end Sys2Proof.Machine
end

section
/-! What the events leave of the key and of OVR (spec/10_state.md R13, R25, R26; spec/40_command_cycle.md R74, R77). -/

namespace Sys2Proof.Machine

/-- What a host write can answer as a next state while busy (R77). -/
theorem hostWrite_busy_next {w : Nat} {v : Word} {s t : State} {j : Instr} (hp : s.phase = .busy j)
    (h : hostWrite w v s = .next t) :
    t = s ∨ t = { s with irqEn := v.getLsbD 0 } ∨ t = s.clearStatus v ∨ t = { s with ovr := true } := by
  simpa only [h, Host.Outcome.next.injEq] using hostWrite_busy (w := w) (v := v) hp

/-- No host write writes K or KEY_VALID: while busy it is dropped or goes to CTRL or STATUS, and an issue leaves both. -/
theorem hostWrite_key {w : Nat} {v : Word} {s t : State} (h : hostWrite w v s = .next t) :
    t.key = s.key ∧ t.keyValid = s.keyValid := by
  rcases phase_cases s with hp | ⟨j, hp⟩
  · rcases hostWrite_idle_next hp h with rfl | rfl | rfl | rfl | rfl | rfl | ⟨b, n, -, rfl⟩ | ⟨-, why, -, rfl⟩ |
      ⟨-, i, -, hx⟩
    any_goals exact ⟨rfl, rfl⟩
    rcases exec_idle_next hp hx with ⟨-, rfl⟩ | ⟨e, rfl⟩ <;> exact ⟨rfl, rfl⟩
  · rcases hostWrite_busy_next hp h with rfl | rfl | rfl | rfl <;> exact ⟨rfl, rfl⟩

/-- A write under the lockout of R77 sets OVR while busy, and leaves it where its effect while idle does. -/
theorem unlessBusy_ovr {s t : State} {k : State → Result} (h : unlessBusy s k = .next t)
    (hk : s.phase = .idle → k s = .next t → t.ovr = s.ovr) :
    t.ovr = s.ovr ∨ (t.ovr = true ∧ ∃ j, s.phase = .busy j) := by
  rcases phase_cases s with hp | ⟨j, hp⟩
  · exact .inl (hk hp (unlessBusy_idle k hp ▸ h))
  · rw [unlessBusy_busy k hp] at h
    cases h
    exact .inr ⟨rfl, j, hp⟩

theorem issueWord_ovr {c : Word} {s t : State} (hp : s.phase = .idle) (h : issueWord c s = .next t) : t.ovr = s.ovr := by
  unfold issueWord at h
  split at h
  · rcases exec_idle_next hp h with ⟨-, rfl⟩ | ⟨_, rfl⟩ <;> rfl
  · cases h
    rfl

/-- A host write leaves OVR, sets it where it is dropped, or clears it where it is a 1 in bit 3 of STATUS (R26). -/
theorem hostWrite_ovr {w : Nat} {v : Word} {s t : State} (h : hostWrite w v s = .next t) :
    t.ovr = s.ovr ∨ (t.ovr = true ∧ (∃ j, s.phase = .busy j) ∧ lockedOffset (4 * w)) ∨
      (t.ovr = false ∧ w = 2 ∧ v.getLsbD 3 = true) := by
  have locked {k : State → Result} (hl : lockedOffset (4 * w)) (hw : unlessBusy s k = .next t)
      (hk : s.phase = .idle → k s = .next t → t.ovr = s.ovr) :
      t.ovr = s.ovr ∨ (t.ovr = true ∧ (∃ j, s.phase = .busy j) ∧ lockedOffset (4 * w)) ∨
        (t.ovr = false ∧ w = 2 ∧ v.getLsbD 3 = true) :=
    (unlessBusy_ovr hw hk).imp_right fun ⟨ho, hb⟩ => .inl ⟨ho, hb, hl⟩
  unfold hostWrite at h
  cases hs : slotAt w with
  | id => simp only [hs] at h; cases h; exact .inl rfl
  | ctrl => simp only [hs] at h; cases h; exact .inl rfl
  | status =>
    simp only [hs] at h
    cases h
    cases hv : v.getLsbD 3 with
    | true => exact .inr (.inr ⟨by simp [hv], slotAt_status hs, rfl⟩)
    | false => exact .inl (by rw [clearStatus_ovr, hv, Bool.not_false, Bool.and_true])
  | cmd =>
    simp only [hs] at h
    exact locked (lockedOffset_of_slotAt (by simp [hs])) h issueWord_ovr
  | len =>
    simp only [hs] at h
    exact locked (lockedOffset_of_slotAt (by simp [hs])) h fun _ hk => by cases hk; rfl
  | outLen =>
    simp only [hs] at h
    exact locked (lockedOffset_of_slotAt (by simp [hs])) h fun _ hk => by cases hk; rfl
  | keyLen =>
    simp only [hs] at h
    exact locked (lockedOffset_of_slotAt (by simp [hs])) h fun _ hk => by cases hk; rfl
  | buf b n =>
    simp only [hs] at h
    exact locked (lockedOffset_of_slotAt (by simp [hs])) h fun _ hk => by cases hk; rfl
  | reserved => simp only [hs] at h; cases h; exact .inl rfl

/-- R77: a write to a locked offset while busy is dropped, and sets OVR. -/
theorem hostWrite_locked {off : Nat} {v : Word} {s : State} {j : Instr} (hp : s.phase = .busy j)
    (hl : lockedOffset off) : hostWrite (off / 4) v s = .next { s with ovr := true } := by
  unfold hostWrite
  rcases (slotAt_locked hl).2 with hs | hs | hs | hs | ⟨b, n, hs⟩ <;> simp only [hs, unlessBusy_busy _ hp]

/-- No host read changes the key or OVR (R48). -/
theorem hostRead_frame {w : Nat} {s t : State} (h : hostRead w s = .next t) :
    t.key = s.key ∧ t.keyValid = s.keyValid ∧ t.ovr = s.ovr := by
  rcases hostRead_next h with ⟨v, rfl⟩ | ⟨j, -, rfl⟩ <;> exact ⟨rfl, rfl, rfl⟩

end Sys2Proof.Machine
end

section
/-! The invariant of the machine: what it says of the byte store, which updates of the state it does not see, and that every
event keeps it (spec/10_state.md R29, R33; spec/40_command_cycle.md R75, R79). -/

namespace Sys2Proof.Machine

/-! ### The byte store -/

/-- What the invariant says of the byte store, by what is read from it: canonical, inside the buffers, whole words.
`State.Inv.soundStore` and `State.Inv.of_idle` tie it to the invariant. -/
def SoundStore (m : Memory) : Prop :=
  Memory.wf m ∧ (∀ x, (readByte m x).isSome → inBuffer x) ∧
    ∀ x, (readByte m x).isSome → (readWord m (x - x % 4)).isSome

theorem readByte_isSome_iff_mem {m : Memory} {x : Nat} : (readByte m x).isSome ↔ ∃ b, (x, b) ∈ m := by
  constructor
  · intro h
    obtain ⟨b, hb⟩ := Option.isSome_iff_exists.1 h
    exact ⟨b, exists_mem_of_readByte hb⟩
  · rintro ⟨b, hb⟩
    exact readByte_isSome_of_mem hb

/-- Storing an aligned word inside a buffer keeps the store sound. -/
theorem SoundStore.writeWord {m : Memory} (h : SoundStore m) {a : Nat} (w : Word) (ha : a % 4 = 0)
    (hin : ∀ x, a ≤ x → x < a + 4 → inBuffer x) : SoundStore (writeWord m a w) := by
  obtain ⟨hc, hi, hw⟩ := h
  refine ⟨writeWord_wf a w hc, fun x hx => ?_, fun x hx => ?_⟩ <;> rw [readByte_writeWord] at hx <;> split at hx
  · exact hin x (by omega) (by omega)
  · exact hi x hx
  · rw [show x - x % 4 = a by omega, readWord_writeWord_same]
    rfl
  · rw [readWord_writeWord_other m w (by omega)]
    exact hw x hx

/-- Storing a run of words inside a buffer keeps the store sound. -/
theorem SoundStore.writeWords {m : Memory} (h : SoundStore m) {a : Nat} (ws : List Word) (ha : a % 4 = 0)
    (hin : ∀ x, a ≤ x → x < a + 4 * ws.length → inBuffer x) : SoundStore (writeWords m a ws) := by
  induction ws generalizing m a with
  | nil => exact h
  | cons w ws ih =>
    simp only [List.length_cons] at hin
    exact ih (h.writeWord w ha fun x _ _ => hin x (by omega) (by omega)) (by omega)
      fun x _ _ => hin x (by omega) (by omega)

/-- A write of a buffer word keeps the store sound. -/
theorem SoundStore.writeBuffer {m : Memory} (h : SoundStore m) {b : Target} {n : Nat} (w : Word) (hn : n < bufWords b) :
    SoundStore (Machine.writeWord m (wordAddr b n) w) := by
  have hb := bufBase_aligned b
  unfold wordAddr
  exact h.writeWord w (by omega) fun x _ _ => inBuffer_of_bufBase (b := b) (by omega) (by omega)

theorem State.Inv.soundStore {s : State} (h : s.Inv) : SoundStore s.mem := by
  refine ⟨h.canonical, fun x hx => ?_, fun x hx => ?_⟩ <;> obtain ⟨b, hb⟩ := readByte_isSome_iff_mem.1 hx
  · exact h.inside (x, b) hb
  · exact h.whole (x, b) hb

/-! ### What the invariant does not see -/

/-- While idle the invariant speaks of the store, of ERR and of the key only. -/
theorem State.Inv.of_idle {s : State} (hp : s.phase = .idle) (hm : SoundStore s.mem) (he : s.err.toNat < 8)
    (hk : s.keyValid = true → s.key.orAll ≠ 0#32) : s.Inv := by
  obtain ⟨hc, hi, hw⟩ := hm
  exact ⟨hc, fun c h => hi c.1 (readByte_isSome_of_mem h), fun c h => hw c.1 (readByte_isSome_of_mem h), he, hk,
    fun i h => by rw [hp] at h; cases h⟩

/-- Whether a command is accepted depends on KEY_VALID, the buffers and the lengths only. -/
theorem Accepts.congr {s t : State} {i : Instr} (h : Accepts s i) (hv : t.keyValid = s.keyValid) (hm : t.mem = s.mem)
    (hl : t.len = s.len) (ho : t.outLen = s.outLen) (hk : t.keyLen = s.keyLen) : Accepts t i := by
  have hw (b : Target) (n : Nat) : t.word b n = s.word b n := by rw [State.word, hm, State.word]
  have hb (b : Target) : t.bufLen b = s.bufLen b := by
    cases b with
    | keybuf => exact hk
    | data => exact hl
  cases i <;> simpa only [Accepts, State.legalBlock, State.legalLayout, hw, hb, hv, hl, ho, hk] using h

/-- The invariant does not see CTRL, OVR, the datapath registers and the model's own fields. -/
theorem State.Inv.of_unseen {s : State} (h : s.Inv) (irqEn ovr : Bool) (dp : Datapath) (pending : List Event)
    (readData : Option Word) (draws : Nat) :
    State.Inv { s with irqEn := irqEn, ovr := ovr, dp := dp, pending := pending, readData := readData, draws := draws } where
  canonical := h.canonical
  inside := h.inside
  whole := h.whole
  errNamed := h.errNamed
  keyNonzero := h.keyNonzero
  accepted i hi :=
    have ⟨ha, hd, he⟩ := h.accepted i hi
    ⟨ha.congr rfl rfl rfl rfl rfl, hd, he⟩

theorem State.Inv.advance {s : State} (h : s.Inv) : s.advance.Inv := h.of_unseen ..

/-! ### The events -/

theorem errorCode_lt (e : ErrorName) : (errorCode e).toNat < 8 := by cases e <;> decide

theorem hostRead_keeps_inv {w : Nat} {s t : State} (h : s.Inv) (hr : hostRead w s = .next t) : t.Inv := by
  rcases hostRead_next hr with ⟨v, rfl⟩ | ⟨j, -, rfl⟩
  · exact h.of_unseen ..
  · exact h.of_unseen ..

/-- A write to STATUS clears DONE and OVR at most, and DONE is 0 while busy. -/
theorem State.Inv.clearStatus {s : State} (h : s.Inv) (v : Word) : (s.clearStatus v).Inv where
  canonical := h.canonical
  inside := h.inside
  whole := h.whole
  errNamed := h.errNamed
  keyNonzero := h.keyNonzero
  accepted i hi :=
    have ⟨ha, hd, he⟩ := h.accepted i hi
    ⟨ha.congr rfl rfl rfl rfl rfl, by simp [hd], he⟩

theorem State.Inv.raise {s : State} (h : s.Inv) (hp : s.phase = .idle) (e : ErrorName) : (s.raise e).Inv :=
  .of_idle hp h.soundStore (errorCode_lt e) h.keyNonzero

theorem State.Inv.accept {s : State} (h : s.Inv) {i : Instr} (ha : Accepts s i) : (s.accept i).Inv where
  canonical := h.canonical
  inside := h.inside
  whole := h.whole
  errNamed := by simp
  keyNonzero := h.keyNonzero
  accepted j hj := by
    cases hj
    exact ⟨ha.congr rfl rfl rfl rfl rfl, rfl, rfl⟩

theorem hostWrite_keeps_inv {w : Nat} {v : Word} {s t : State} (h : s.Inv) (hw : hostWrite w v s = .next t) :
    t.Inv := by
  rcases phase_cases s with hp | ⟨j, hp⟩
  · rcases hostWrite_idle_next hp hw with rfl | rfl | rfl | rfl | rfl | rfl | ⟨b, n, hs, rfl⟩ | ⟨-, _, -, rfl⟩ |
      ⟨-, i, -, hx⟩
    · exact h
    · exact h.of_unseen ..
    · exact h.clearStatus v
    · exact .of_idle hp h.soundStore h.errNamed h.keyNonzero
    · exact .of_idle hp h.soundStore h.errNamed h.keyNonzero
    · exact .of_idle hp h.soundStore h.errNamed h.keyNonzero
    · exact .of_idle hp (h.soundStore.writeBuffer v (lt_bufWords_of_slotAt hs)) h.errNamed h.keyNonzero
    · exact h.raise hp .illegalCommand
    · rcases exec_idle_next hp hx with ⟨ha, rfl⟩ | ⟨e, rfl⟩
      · exact h.accept ha
      · exact h.raise hp e
  · rcases hostWrite_busy_next hp hw with rfl | rfl | rfl | rfl
    · exact h
    · exact h.of_unseen ..
    · exact h.clearStatus v
    · exact h.of_unseen ..

/-- An accepted command works inside its buffer (R59, R88, R94). -/
theorem Accepts.operandWords_le {s : State} {i : Instr} (h : Accepts s i) :
    s.operandWords i ≤ bufWords (commandBuffer i) := by
  have block (hl : s.legalBlock) : s.len.toNat / 4 ≤ bufWords .data := by
    obtain ⟨-, hl, -⟩ := hl
    simp only [bufWords, Config.nbuf]
    omega
  have layout (b : Target) (hl : s.legalLayout b) : (s.bufLen b).toNat / 4 ≤ bufWords b := by
    obtain ⟨-, -, hl⟩ := hl
    unfold bufCap at hl
    omega
  cases i with
  | keyset => exact le_refl 4
  | enc => exact block h.1
  | dec => exact block h.1
  | revw b => exact layout b h
  | revb b => exact layout b h
  | reva b => exact layout b h

/-- What an effect stores is a run of words from the start of its buffer, no more than it reads; KEYSET stores none. -/
theorem effect_mem {i : Instr} {s u : State} (h : effect i s = .next u) :
    ∃ ws : List Word, ws.length ≤ s.operandWords i ∧ u.mem = writeWords s.mem (bufBase (commandBuffer i)) ws := by
  have layout {b : Target} {f : List Word → List Word} (hi : layoutOf i = some (b, f)) :
      ∃ ws : List Word, ws.length = s.groups b ∧ u.mem = writeWords s.mem (bufBase b) ws := by
    obtain ⟨ws, hw, rfl⟩ := adapterEffect_next (effect_layout hi s ▸ h)
    exact ⟨f ws, (layoutOf_length hi ws).trans (words_length hw), rfl⟩
  cases i with
  | keyset =>
    obtain ⟨_, _, _, _, -, rfl⟩ := effect_keyset_next h
    exact ⟨[], Nat.zero_le _, rfl⟩
  | enc =>
    obtain ⟨v, hv, rfl⟩ := cipherEffect_next h
    exact ⟨_, ((encBlock_length ..).trans (words_length hv)).le, rfl⟩
  | dec =>
    obtain ⟨v, hv, rfl⟩ := cipherEffect_next h
    exact ⟨_, ((decBlock_length ..).trans (words_length hv)).le, rfl⟩
  | revw b =>
    obtain ⟨ws, hl, hm⟩ := layout rfl
    exact ⟨ws, hl.le, hm⟩
  | revb b =>
    obtain ⟨ws, hl, hm⟩ := layout rfl
    exact ⟨ws, hl.le, hm⟩
  | reva b =>
    obtain ⟨ws, hl, hm⟩ := layout rfl
    exact ⟨ws, hl.le, hm⟩

/-- The effect of an accepted command leaves a valid key that is not zero: KEYSET's words passed the zero test (R94). -/
theorem effect_keeps_keyNonzero {i : Instr} {s u : State} (h : s.Inv) (ha : Accepts s i) (hu : effect i s = .next u)
    (hv : u.keyValid = true) : u.key.orAll ≠ 0#32 := by
  rcases effect_key hu with ⟨hk, hkv⟩ | ⟨rfl, -⟩
  · rw [hk]
    exact h.keyNonzero (hkv ▸ hv)
  · obtain ⟨-, w0, w1, w2, w3, h0, h1, h2, h3, hne⟩ := ha
    obtain ⟨x0, x1, x2, x3, hx, rfl⟩ := effect_keyset_next hu
    rw [words_keybuf_four.2 ⟨h0, h1, h2, h3⟩] at hx
    cases hx
    exact hne

/-- A completion keeps the invariant: its command was accepted, so it stores inside its buffer and loads no zero key. -/
theorem completion_keeps_inv {i : Instr} {s t : State} (h : s.Inv) (hp : s.phase = .busy i) (hx : exec i s = .next t) :
    t.Inv := by
  obtain ⟨u, hu, rfl⟩ := exec_completes hp hx
  obtain ⟨ha, -, -⟩ := h.accepted i hp
  obtain ⟨-, -, -, -, -, -, herr, -⟩ := effect_frame hu
  have hstore : SoundStore u.mem := by
    obtain ⟨ws, hl, hm⟩ := effect_mem hu
    have hle := hl.trans ha.operandWords_le
    exact hm ▸ h.soundStore.writeWords ws (bufBase_aligned _) fun x _ _ => inBuffer_of_bufBase ‹_› (by omega)
  exact .of_idle rfl hstore (by simpa [herr] using h.errNamed) (effect_keeps_keyNonzero (u := u) h ha hu)

/-- The block after a reset satisfies the invariant, whatever it held before (R143). -/
theorem resetBlock_inv (s : State) : (resetBlock s).Inv :=
  .of_idle rfl ⟨.nil, nofun, nofun⟩ (by simp [resetBlock, State.reset]) nofun

/-- Settles O48: by the event of the step; the one that needs the invariant's last clause is the completion. -/
theorem stepKeepsTheInvariant : Obligations.StepKeepsTheInvariant := by
  intro s t h hs
  rcases step_next hs with ⟨off, size, -, -, hr⟩ | ⟨off, size, v, -, -, hw⟩ | ⟨-, -, rfl⟩ | ⟨i, -, hp, hx⟩ | ⟨-, rfl⟩
  · exact hostRead_keeps_inv h.advance hr
  · exact hostWrite_keeps_inv h.advance hw
  · exact h.advance
  · exact completion_keeps_inv h.advance hp hx
  · exact resetBlock_inv s.advance

/-- Settles O47: the state after reset is a reset block. -/
theorem resetSatisfiesTheInvariant : Obligations.ResetSatisfiesTheInvariant :=
  fun es => resetBlock_inv { State.reset with pending := es }

/-- Every state a run reaches satisfies the invariant. -/
theorem Reachable.inv {s : State} (h : Reachable s) : s.Inv := by
  induction h with
  | start es => exact resetSatisfiesTheInvariant es
  | next _ hs ih => exact stepKeepsTheInvariant _ _ ih hs

/-- Settles O38: it is a clause of the invariant. -/
theorem validKeyIsNeverZero : Obligations.ValidKeyIsNeverZero :=
  fun _ h => h.inv.keyNonzero

end Sys2Proof.Machine
end

section
/-! Which steps change the key and OVR, and where a step faults (spec/10_state.md R13, R14, R25, R26, R29). -/

namespace Sys2Proof.Machine

/-! ### The key -/

/-- A step leaves K and KEY_VALID unless it is a reset or the completion of KEYSET (R13, R25). -/
theorem step_key {s t : State} (h : step s = .next t) :
    (t.key = s.key ∧ t.keyValid = s.keyValid) ∨ (s.nextEvent = .reset ∧ t.keyValid = false) ∨
      (s.nextEvent = .completion ∧ s.phase = .busy .keyset ∧ t.keyValid = true) := by
  rcases step_next h with ⟨off, size, -, -, hr⟩ | ⟨off, size, v, -, -, hw⟩ | ⟨-, -, rfl⟩ | ⟨i, he, hp, hx⟩ | ⟨he, rfl⟩
  · obtain ⟨hk, hv, -⟩ := hostRead_frame hr
    exact .inl ⟨hk, hv⟩
  · exact .inl (hostWrite_key (s := s.advance) hw)
  · exact .inl ⟨rfl, rfl⟩
  · obtain ⟨u, hu, rfl⟩ := exec_completes (s := s.advance) hp hx
    rcases effect_key hu with hk | ⟨rfl, hv⟩
    · exact .inl hk
    · exact .inr (.inr ⟨he, hp, hv⟩)
  · exact .inr (.inl ⟨he, rfl⟩)

/-- Settles O36: a step that changes K or KEY_VALID is one of the two. -/
theorem keyChangesOnlyByKeysetOrReset : Obligations.KeyChangesOnlyByKeysetOrReset := by
  intro s t h
  rcases step_key h with ⟨hk, hv⟩ | ⟨he, hv⟩ | ⟨he, hp, hv⟩
  · exact ⟨fun hne => absurd hk hne, fun hne => absurd hv hne⟩
  · exact ⟨fun _ => .inl he, fun _ => .inl ⟨he, hv⟩⟩
  · exact ⟨fun _ => .inr ⟨he, hp⟩, fun _ => .inr ⟨he, hp, hv⟩⟩

/-- What a step answers, with K replaced by `k` in the next state. -/
def withKey (k : KeyFile) : Result → Result
  | .next t => .next { t with key := k }
  | .fault f => .fault f
  | .refused r => .refused r

theorem readBuffer_withKey (b : Target) (n : Nat) (s : State) (k : KeyFile) :
    readBuffer { s with key := k } b n = withKey k (readBuffer s b n) := by
  rcases phase_cases s with hp | ⟨i, hp⟩
  · have hw : State.word { s with key := k } b n = s.word b n := rfl
    rw [readBuffer_idle hp, readBuffer_idle (s := { s with key := k }) hp, hw]
    cases s.word b n <;> rfl
  · rw [readBuffer_busy hp, readBuffer_busy (s := { s with key := k }) hp]
    rfl

/-- No slot of the window shows K (R46): a host read goes the same way with any key. -/
theorem hostRead_withKey (w : Nat) (s : State) (k : KeyFile) :
    hostRead w { s with key := k } = withKey k (hostRead w s) := by
  unfold hostRead
  cases slotAt w with
  | buf b n => exact readBuffer_withKey b n s k
  | _ => rfl

/-- A step that is a host read goes the same way with any key. -/
theorem step_read_withKey {s : State} {off size : Nat} (h : s.nextEvent = .read off size) (k : KeyFile) :
    step { s with key := k } = withKey k (step s) := by
  rw [step_read h, step_read (s := { s with key := k }) h]
  split
  · exact hostRead_withKey (off / 4) s.advance k
  · rfl

/-- Settles O37: the two steps answer the same but for K. -/
theorem hostReadsDoNotRevealTheKey : Obligations.HostReadsDoNotRevealTheKey := by
  intro s k off size h
  rw [step_read_withKey h k]
  refine ⟨fun t ht => ?_, fun f hf => ?_, fun r hr => ?_⟩
  · rw [ht, withKey]
  · rw [hf, withKey]
  · rw [hr, withKey]

/-! ### OVR -/

/-- A step leaves OVR unless it is a dropped write, a 1 in bit 3 of STATUS or a reset (R26). -/
theorem step_ovr {s t : State} (h : step s = .next t) : t.ovr = s.ovr ∨
    (t.ovr = true ∧ ∃ i off v, s.phase = .busy i ∧ s.nextEvent = .write off 4 v ∧ lockedOffset off) ∨
    (t.ovr = false ∧ (s.nextEvent = .reset ∨ ∃ v, s.nextEvent = .write 0x008 4 v ∧ v.getLsbD 3 = true)) := by
  rcases step_next h with ⟨off, size, -, -, hr⟩ | ⟨off, size, v, he, ha, hw⟩ | ⟨-, -, rfl⟩ | ⟨i, -, hp, hx⟩ | ⟨he, rfl⟩
  · obtain ⟨-, -, ho⟩ := hostRead_frame hr
    exact .inl ho
  · obtain ⟨rfl, h4, -⟩ := wordAccess_iff.1 ha
    rcases hostWrite_ovr hw with ho | ⟨ho, ⟨j, hp⟩, hl⟩ | ⟨ho, hw2, hv⟩
    · exact .inl ho
    · rw [Nat.mul_div_cancel' (Nat.dvd_of_mod_eq_zero h4)] at hl
      exact .inr (.inl ⟨ho, j, off, v, hp, he, hl⟩)
    · obtain rfl : off = 8 := by omega
      exact .inr (.inr ⟨ho, .inr ⟨v, he, hv⟩⟩)
  · exact .inl rfl
  · obtain ⟨u, hu, rfl⟩ := exec_completes (s := s.advance) hp hx
    obtain ⟨-, -, -, -, -, ho, -⟩ := effect_frame hu
    exact .inl ho
  · exact .inr (.inr ⟨rfl, .inl he⟩)

/-- Settles O42: the three clauses run the one event each, and the fourth is `step_ovr`. -/
theorem overrunChangesOnlyAsStated : Obligations.OverrunChangesOnlyAsStated := by
  refine ⟨fun s i off v hp he hl => ?_, fun s v he hv => ?_, fun s he => ?_, fun s t h hne => ?_⟩
  · refine ⟨{ s.advance with ovr := true }, ?_, rfl⟩
    rw [step_write he, if_pos (slotAt_locked hl).1, hostWrite_locked (s := s.advance) hp hl]
  · refine ⟨s.advance.clearStatus v, ?_, by simp [hv]⟩
    rw [step_write he, if_pos (by decide)]
    rfl
  · exact ⟨resetBlock s.advance, step_reset he, rfl⟩
  · exact (step_ovr h).resolve_left hne

/-! ### Faults -/

theorem wordsUnwritten_iff {s : State} {i : Instr} :
    s.words (commandBuffer i) (s.operandWords i) = none ↔ ¬s.operandsWritten i := by
  rw [words_eq_none]
  simp [State.operandsWritten]

/-- Taking the event off the list changes nothing a completion reads. -/
theorem advance_operandsWritten (s : State) (i : Instr) : s.advance.operandsWritten i ↔ s.operandsWritten i := by
  cases i <;> simp [State.operandsWritten, State.operandWords]

/-- A host read faults exactly where it reads an unwritten buffer word while idle (R29). -/
theorem step_read_fault {s : State} {off size : Nat} {f : Fault} (he : s.nextEvent = .read off size) :
    step s = .fault f ↔ f = .unwrittenRead ∧ s.phase = .idle ∧
      ∃ b n, n < bufWords b ∧ off = wordAddr b n ∧ size = 4 ∧ s.written b n = false := by
  rw [step_read he]
  by_cases ha : wordAccess off size = true
  · obtain ⟨rfl, h4, -⟩ := wordAccess_iff.1 ha
    rw [if_pos ha, hostRead_fault]
    refine and_congr_right fun _ => and_congr_right fun _ => exists₂_congr fun b n => ?_
    constructor
    · rintro ⟨hs, hw⟩
      exact ⟨lt_bufWords_of_slotAt hs, offset_eq_wordAddr h4 hs, rfl, hw⟩
    · rintro ⟨hn, rfl, -, hw⟩
      exact ⟨(slotAt_wordAddr hn).1, hw⟩
  · rw [if_neg ha]
    refine iff_of_false nofun ?_
    rintro ⟨-, -, b, n, hn, rfl, rfl, -⟩
    exact ha (slotAt_wordAddr hn).2

/-- A host write faults exactly where KEYSET's zero test reads an unwritten key word (R74, R94). -/
theorem step_write_fault {s : State} {off size : Nat} {v : Word} {f : Fault} (he : s.nextEvent = .write off size v) :
    step s = .fault f ↔ f = .unwrittenRead ∧ s.phase = .idle ∧ off = 0x00C ∧ size = 4 ∧ v = 0x00000001#32 ∧
      s.keyLen = 16#32 ∧ ∃ n, n < 4 ∧ s.written .keybuf n = false := by
  rw [step_write he]
  constructor
  · intro h
    split at h
    · rename_i ha
      obtain ⟨rfl, h4, -⟩ := wordAccess_iff.1 ha
      obtain ⟨hp, hw, i, hd, hx⟩ := hostWrite_stops (s := s.advance) (w := off / 4) (v := v) fun t => by rw [h]; nofun
      rw [hx, exec_idle_fault hp, words_eq_none] at h
      obtain ⟨rfl, rfl, hl, hn⟩ := h
      exact ⟨rfl, hp, by omega, rfl, eq_encode_of_decode hd, hl, hn⟩
    · cases h
  · rintro ⟨rfl, hp, rfl, rfl, rfl, hl, hn⟩
    have hx : hostWrite (0x00C / 4) 0x00000001#32 s.advance = exec .keyset s.advance := unlessBusy_idle _ hp
    rw [if_pos (by decide), hx, exec_idle_fault (s := s.advance) hp, words_eq_none]
    exact ⟨rfl, rfl, hl, hn⟩

/-- A core step faults exactly where the completion of the running command reads an unwritten word (R76). -/
theorem step_completion_fault {s : State} {f : Fault} (he : s.nextEvent = .completion) :
    step s = .fault f ↔ f = .unwrittenRead ∧ ∃ i, s.phase = .busy i ∧ ¬s.operandsWritten i := by
  rw [step_completion he]
  rcases phase_cases s with hp | ⟨i, hp⟩
  · simp [coreStep, hp]
  · have hc : coreStep s.advance = exec i s.advance := by simp [coreStep, hp]
    rw [hc, exec_busy_fault (s := s.advance) hp, wordsUnwritten_iff, advance_operandsWritten]
    simp [hp]

/-- Settles O35: by the event of the step; the disjuncts of the other events are false. -/
theorem faultsExactlyOnUnwrittenReads : Obligations.FaultsExactlyOnUnwrittenReads := by
  intro s f
  cases he : s.nextEvent with
  | read off size =>
    rw [step_read_fault he]
    simp [and_assoc]
  | write off size v =>
    rw [step_write_fault he]
    simp [and_assoc]
  | completion =>
    rw [step_completion_fault he]
    simp
  | reset => simp [step_reset he]

end Sys2Proof.Machine
end

section
/-! What the placing of a command's word runs (spec/10_state.md R28, spec/40_command_cycle.md R74). -/

namespace Sys2Proof.Machine

/-- The write of a command's word to CMD while idle is the issue of that command (R74). -/
theorem hostWrite_encode {s : State} (hp : s.phase = .idle) (i : Instr) :
    hostWrite (cmdOffset / 4) (encode i) s = exec i s := by
  have hw : hostWrite (cmdOffset / 4) (encode i) s = unlessBusy s (issueWord (encode i)) := rfl
  rw [hw, unlessBusy_idle _ hp, issueWord, decode_encode]

/-- Settles O6: the placed word is the write of the command's word to CMD. -/
theorem placedWordRunsNext : Obligations.PlacedWordRunsNext := by
  intro s i
  have hv : BitVec.ofNat 32 ((encode i).toNat % 2 ^ 32) = encode i := by
    rw [Nat.mod_eq_of_lt (encode i).isLt, BitVec.ofNat_toNat, BitVec.setWidth_eq]
  rw [withFetchWord_eq, hv, step_write (withCommandWrite_nextEvent ..), if_pos (by decide), hostWrite_encode rfl]
  rfl

end Sys2Proof.Machine
end

section
/-! What a step that is one word access answers, slot by slot (spec/20_memory.md R37, R48, R49). -/

namespace Sys2Proof.Machine

/-- A read of one word of the window is the host read of its slot. -/
theorem step_read_word {s : State} {off : Nat} (ha : wordAccess off 4 = true) (he : s.nextEvent = .read off 4) :
    step s = hostRead (off / 4) s.advance := by
  rw [step_read he, if_pos ha]

/-- A write of one word of the window is the host write to its slot. -/
theorem step_write_word {s : State} {off : Nat} {v : Word} (ha : wordAccess off 4 = true)
    (he : s.nextEvent = .write off 4 v) : step s = hostWrite (off / 4) v s.advance := by
  rw [step_write he, if_pos ha]

/-! ### Reads -/

theorem readsAs_of_hostRead {s : State} {off : Nat} {v : Word} (ha : wordAccess off 4 = true)
    (hr : hostRead (off / 4) s.advance = .next (s.advance.returning v)) : ReadsAs s off v :=
  fun he => (step_read_word ha he).trans hr

theorem readsAs_reserved {s : State} {off : Nat} (h : reservedOffset off) : ReadsAs s off 0#32 :=
  readsAs_of_hostRead (slotAt_reserved h).2 (hostRead_reserved (slotAt_reserved h).1)

theorem step_read_buf {s : State} {b : Target} {n : Nat} (hn : n < bufWords b)
    (he : s.nextEvent = .read (wordAddr b n) 4) : step s = readBuffer s.advance b n := by
  obtain ⟨hs, ha⟩ := slotAt_wordAddr hn
  rw [step_read_word ha he, hostRead_buf hs]

/-! ### Writes -/

theorem hostWrite_ctrl (v : Word) (s : State) : hostWrite 1 v s = .next { s with irqEn := v.getLsbD 0 } := rfl

theorem hostWrite_status (v : Word) (s : State) : hostWrite 2 v s = .next (s.clearStatus v) := rfl

theorem hostWrite_len (v : Word) (s : State) :
    hostWrite 4 v s = unlessBusy s fun s => .next { s with len := v } := rfl

theorem hostWrite_outLen (v : Word) (s : State) :
    hostWrite 5 v s = unlessBusy s fun s => .next { s with outLen := v } := rfl

theorem hostWrite_keyLen (v : Word) (s : State) :
    hostWrite 6 v s = unlessBusy s fun s => .next { s with keyLen := v } := rfl

theorem step_write_reserved {s : State} {off : Nat} {v : Word} (h : reservedOffset off)
    (he : s.nextEvent = .write off 4 v) : step s = .next s.advance := by
  obtain ⟨hs, ha⟩ := slotAt_reserved h
  rw [step_write_word ha he, hostWrite_reserved hs]

/-- While idle the write to a slot under the lockout of R77 is performed. -/
theorem step_write_idle {s : State} {off : Nat} {v : Word} {k : State → Result} (hp : s.phase = .idle)
    (ha : wordAccess off 4 = true) (he : s.nextEvent = .write off 4 v)
    (hw : hostWrite (off / 4) v s.advance = unlessBusy s.advance k) : step s = k s.advance := by
  rw [step_write_word ha he, hw, unlessBusy_idle k (s := s.advance) hp]

theorem step_write_buf_idle {s : State} {b : Target} {n : Nat} {v : Word} (hp : s.phase = .idle)
    (hn : n < bufWords b) (he : s.nextEvent = .write (wordAddr b n) 4 v) :
    step s = .next { s.advance with mem := writeWord s.mem (wordAddr b n) v } := by
  obtain ⟨hs, ha⟩ := slotAt_wordAddr hn
  exact step_write_idle hp ha he (hostWrite_buf hs)

end Sys2Proof.Machine
end

section
/-! The words a host reads from CTRL and STATUS, bit by bit (spec/10_state.md R21, R22; spec/20_memory.md R38). -/

namespace Sys2Proof.Machine

theorem ctrlWord_eq (s : State) : s.ctrlWord = if s.irqEn then 1#32 else 0#32 := by
  cases h : s.irqEn <;> simp [State.ctrlWord, h]

/-- Appending a field to a word shifts the word by the field's width. -/
theorem toNat_append_eq_add {m n : Nat} (x : BitVec m) (y : BitVec n) :
    (x ++ y).toNat = 2 ^ n * x.toNat + y.toNat := by
  rw [BitVec.toNat_append, Nat.shiftLeft_eq, Nat.mul_comm, Nat.two_pow_add_eq_or_of_lt y.isLt]

/-- STATUS is ERR above one byte that only its four flags use. -/
theorem statusNumber_eq_err_flags (s : State) :
    ∃ flags, flags < 2 ^ 4 ∧ s.statusNumber = 2 ^ 8 * s.err.toNat + flags := by
  have ho := s.ovr.toNat_le
  have hk := s.keyValid.toNat_le
  have hd := s.done.toNat_le
  have hb := s.busy.toNat_le
  refine ⟨8 * s.ovr.toNat + 4 * s.keyValid.toNat + 2 * s.done.toNat + s.busy.toNat, by omega, ?_⟩
  rw [State.statusNumber]
  omega

theorem toNat_statusWord (s : State) : s.statusWord.toNat = s.statusNumber := by
  simp only [State.statusWord, toNat_append_eq_add, BitVec.toNat_ofBool, BitVec.toNat_ofNat, State.statusNumber]
  omega

theorem statusWord_eq (s : State) : s.statusWord = BitVec.ofNat 32 s.statusNumber := by
  rw [← toNat_statusWord, BitVec.ofNat_toNat, BitVec.setWidth_eq]

theorem ctrlWord_reserved (s : State) {n : Nat} (hn : 1 ≤ n) : s.ctrlWord.getLsbD n = false := by
  rw [ctrlWord_eq]
  split
  · simp [BitVec.getLsbD_one, Nat.ne_of_gt hn]
  · simp

/-- The reserved bits of STATUS lie between its flags and ERR, and above ERR. -/
theorem statusWord_reserved (s : State) {n : Nat} (hn : (4 ≤ n ∧ n ≤ 7) ∨ 12 ≤ n) :
    s.statusWord.getLsbD n = false := by
  obtain ⟨flags, hf, heq⟩ := statusNumber_eq_err_flags s
  have he := s.err.isLt
  rw [← BitVec.testBit_toNat, toNat_statusWord, heq, Nat.testBit_two_pow_mul_add _ (by omega)]
  rcases hn with ⟨hlo, hhi⟩ | hn
  · rw [if_pos (by omega)]
    exact Nat.testBit_lt_two_pow (hf.trans_le (Nat.pow_le_pow_right (by decide) hlo))
  · rw [if_neg (by omega)]
    exact Nat.testBit_lt_two_pow (he.trans_le (Nat.pow_le_pow_right (by decide) (by omega)))

end Sys2Proof.Machine
end

section
/-! The byte lanes of a buffer word as quotients of its value (spec/20_memory.md R43, R44). -/

namespace Sys2Proof.Machine

theorem lane_eq_ofNat (w : Word) (j : Nat) : lane w j = BitVec.ofNat 8 (w.toNat / 2 ^ (24 - 8 * j)) := by
  rw [← Nat.shiftRight_eq_div_pow]
  rfl

/-- `readWord_eq_some` with its four bytes as one family. -/
theorem readWord_eq_some_iff_forall_lane {m : Memory} {a : Nat} {w : Word} :
    readWord m a = some w ↔ ∀ j, j < 4 → readByte m (a + j) = some (lane w j) := by
  rw [readWord_eq_some]
  constructor
  · rintro ⟨h0, h1, h2, h3⟩ j hj
    match j, hj with
    | 0, _ => exact h0
    | 1, _ => exact h1
    | 2, _ => exact h2
    | 3, _ => exact h3
  · intro h
    exact ⟨h 0 (by omega), h 1 (by omega), h 2 (by omega), h 3 (by omega)⟩

/-- Settles O33: both sides say which byte stands in each of the word's four places. -/
theorem byteLanesAreBigEndian : Obligations.ByteLanesAreBigEndian := by
  intro s b n w
  rw [State.word, readWord_eq_some_iff_forall_lane]
  simp only [State.byte, wordAddr, lane_eq_ofNat, Nat.add_assoc]

end Sys2Proof.Machine
end

section
/-! What the host reads and writes at each slot (spec/20_memory.md R38, R48, R49). -/

namespace Sys2Proof.Machine

/-- R48 for a buffer word: its value or a fault while idle, an open value while busy. -/
theorem step_read_buf_cases {s : State} {b : Target} {n : Nat} (hn : n < bufWords b)
    (he : s.nextEvent = .read (wordAddr b n) 4) :
    (∀ w, s.phase = .idle → s.word b n = some w → step s = .next { s.advance with readData := some w }) ∧
      (s.phase = .idle → s.written b n = false → step s = .fault .unwrittenRead) ∧
      ∀ i, s.phase = .busy i → ∃ w k, step s = .next { s.advance with readData := some w, draws := k } := by
  rw [step_read_buf hn he]
  refine ⟨fun w hp hw => ?_, fun hp hw => ?_, fun i hp => ?_⟩
  · rw [readBuffer_idle (s := s.advance) hp, advance_word, hw]
    rfl
  · have hnone : s.word b n = none := by simpa [State.written] using hw
    rw [readBuffer_idle (s := s.advance) hp, advance_word, hnone]
  · exact ⟨_, _, readBuffer_busy (s := s.advance) hp⟩

/-- Settles O29: a register slot answers its word, and the buffer words are `step_read_buf_cases`. -/
theorem hostReadReturnsTheSlot : Obligations.HostReadReturnsTheSlot := by
  intro s
  refine ⟨?id, ?ctrl, ?status, ?cmd, ?len, ?outLen, ?keyLen, fun _ => readsAs_reserved, fun _ _ => step_read_buf_cases⟩
  case ctrl => exact ctrlWord_eq s ▸ readsAs_of_hostRead (by decide) rfl
  case status => exact statusWord_eq s ▸ readsAs_of_hostRead (by decide) rfl
  all_goals exact readsAs_of_hostRead (by decide) rfl

/-- Settles O30: the locked slots are not locked while idle, and a buffer write stores its one word. -/
theorem idleWriteStores : Obligations.IdleWriteStores := by
  intro s off v hp he
  refine ⟨?ignored, ?ctrl, ?status, ?len, ?outLen, ?keyLen, ?buffer⟩
  case ignored =>
    rintro (rfl | hr)
    · exact step_write_word (by decide) he
    · exact step_write_reserved hr he
  case ctrl =>
    rintro rfl
    exact (step_write_word (by decide) he).trans (hostWrite_ctrl v s.advance)
  case status =>
    rintro rfl
    exact (step_write_word (by decide) he).trans (hostWrite_status v s.advance)
  case len =>
    rintro rfl
    exact step_write_idle hp (by decide) he (hostWrite_len v s.advance)
  case outLen =>
    rintro rfl
    exact step_write_idle hp (by decide) he (hostWrite_outLen v s.advance)
  case keyLen =>
    rintro rfl
    exact step_write_idle hp (by decide) he (hostWrite_keyLen v s.advance)
  case buffer =>
    rintro b n hn rfl
    refine ⟨_, step_write_buf_idle hp hn he, rfl, readWord_writeWord_same .., fun a ha => ?_⟩
    rw [readByte_writeWord, if_neg (by omega)]

/-- Settles O32: CTRL and STATUS take from the written word the bits that are not reserved. -/
theorem reservedReadsZeroIgnoresWrites : Obligations.ReservedReadsZeroIgnoresWrites := by
  refine ⟨fun s off hr => ⟨readsAs_reserved hr, fun v => step_write_reserved hr⟩,
    fun s n => ⟨ctrlWord_reserved s, statusWord_reserved s⟩, fun s v w => ⟨fun h0 => ?_, fun h1 h3 => ?_⟩⟩
  · rw [hostWrite_ctrl, hostWrite_ctrl, h0]
  · rw [hostWrite_status, hostWrite_status, State.clearStatus, State.clearStatus, h1, h3]

end Sys2Proof.Machine
end

section
/-! Which steps are refused (spec/20_memory.md R40). -/

namespace Sys2Proof.Machine

/-- Every host write has a meaning: only a command could stop it, and no command is refused. -/
theorem hostWrite_refused {w : Nat} {v : Word} {s : State} {r : Refusal} (h : hostWrite w v s = .refused r) : False := by
  obtain ⟨-, -, i, -, hx⟩ := hostWrite_stops (w := w) (v := v) (s := s) fun t => by rw [h]; nofun
  exact exec_refused (hx ▸ h)

theorem coreStep_refused {s : State} {r : Refusal} (h : coreStep s = .refused r) : False := by
  unfold coreStep at h
  split at h
  · cases h
  · exact exec_refused h

/-- An access whose meaning is never refused is refused exactly where the check of R40 fails. -/
theorem checkedAccess_refused {off size : Nat} {x : Result} {r : Refusal} (hx : ∀ {r}, x = .refused r → False) :
    (if wordAccess off size then x else .refused .notAWordAccess) = .refused r ↔
      r = .notAWordAccess ∧ ¬(size = 4 ∧ off % 4 = 0 ∧ off < 512) := by
  rw [← wordAccess_iff]
  by_cases ha : wordAccess off size = true
  · rw [if_pos ha]
    exact iff_of_false hx fun ⟨_, hn⟩ => hn ha
  · rw [if_neg ha, and_iff_left ha, Host.Outcome.refused.injEq, eq_comm]

/-- Settles O34: by the event of the step; only the check of R40 refuses. -/
theorem refusesExactlyOtherAccesses : Obligations.RefusesExactlyOtherAccesses := by
  intro s r
  cases he : s.nextEvent with
  | read off size =>
    rw [step_read he, checkedAccess_refused hostRead_refused]
    simp [and_assoc]
  | write off size v =>
    rw [step_write he, checkedAccess_refused hostWrite_refused]
    simp [and_assoc]
  | completion =>
    rw [step_completion he]
    exact iff_of_false coreStep_refused (by simp)
  | reset =>
    rw [step_reset he]
    simp

end Sys2Proof.Machine
end

section
/-! The command words, both ways: what decodes, from which words, to which command (spec/30_encoding.md R61–R64). -/

namespace Sys2Proof

/-- A word decodes to a command exactly where it is that command's encoding (R61, R64). -/
theorem decode_eq_command_iff {c : Word} {i : Instr} : decode c = .command i ↔ c = encode i := by
  constructor
  · exact eq_encode_of_decode
  · rintro rfl
    exact decode_encode i

/-- Settles O1: the decoder inverts the encoder, and only on the encoder's words. -/
theorem decodeAndEncodeAgree : Obligations.DecodeAndEncodeAgree := fun _ _ => decode_eq_command_iff

/-- A table row's word that is a command's encoding decodes to that command. -/
theorem decodeTableWord_encode (i : Instr) : decodeTableWord 32 (encode i).toNat = some i := by
  have hlt : (encode i).toNat < 2 ^ 32 := (encode i).isLt
  simp only [decodeTableWord, Nat.mod_eq_of_lt hlt, if_pos hlt, BitVec.ofNat_toNat, BitVec.setWidth_eq, decode_encode]

/-- Settles O3: each of the six words is the encoding of its command. -/
theorem writtenWordsDecode : Obligations.WrittenWordsDecode :=
  ⟨decodeTableWord_encode .keyset, decodeTableWord_encode .enc, decodeTableWord_encode .dec,
    decodeTableWord_encode (.revw .keybuf), decodeTableWord_encode (.revb .data), decodeTableWord_encode (.reva .data)⟩

end Sys2Proof

namespace Sys2Proof.Machine

/-- R63: every command has its row in the opcode map. -/
theorem encode_mem_commandTable (i : Instr) : (encode i, i) ∈ commandTable := by
  cases i with
  | keyset => decide
  | enc => decide
  | dec => decide
  | revw b => cases b <;> decide
  | revb b => cases b <;> decide
  | reva b => cases b <;> decide

/-- R61, R63: every row of the opcode map holds a command with its encoding. -/
theorem fst_eq_encode_of_mem_commandTable : ∀ p ∈ commandTable, p.1 = encode p.2 := by decide

/-- The rows of the opcode map are the commands with their encodings. -/
theorem mem_commandTable_iff {c : Word} {i : Instr} : (c, i) ∈ commandTable ↔ c = encode i := by
  constructor
  · exact fst_eq_encode_of_mem_commandTable (c, i)
  · rintro rfl
    exact encode_mem_commandTable i

/-- Settles O2: a word decodes to a command exactly where it is the encoding in that command's row. -/
theorem exactlyNineWordsDecode : Obligations.ExactlyNineWordsDecode := by
  intro c
  have hrow (i : Instr) : decode c = .command i ↔ (c, i) ∈ commandTable :=
    decode_eq_command_iff.trans mem_commandTable_iff.symm
  refine ⟨hrow, fun hnone => ?_⟩
  cases hd : decode c with
  | command i => exact absurd rfl (hnone (c, i) ((hrow i).1 hd))
  | illegal why => exact ⟨why, rfl⟩

end Sys2Proof.Machine
end

section
/-! What an effect writes depends on the operands R65 gives its command and on nothing else (spec/30_encoding.md R65;
spec/40_command_cycle.md R83, R85). -/

namespace Sys2Proof.Machine

/-! ### The datapath registers a command finds (R110) -/

/-- An encryption round sees of the registers it finds only `sum`, `z` and `q`: its first update writes the others. -/
theorem encRound_dp (k : KeyFile) (n : Nat) (d d' : Datapath) (sum z : Word) (q : BitVec 5) (v : List Word) :
    encRound k (n + 1) ({ d with sum := sum, z := z, q := q }, v) =
      encRound k (n + 1) ({ d' with sum := sum, z := z, q := q }, v) := by
  simp only [encRound, List.range_succ_eq_map, List.foldl_cons]
  rfl

/-- A decryption round sees of the registers it finds only `sum`, `y` and `q`: its first update writes the others. -/
theorem decRound_dp (k : KeyFile) (n : Nat) (d d' : Datapath) (sum y : Word) (q : BitVec 5) (v : List Word) :
    decRound k (n + 1) ({ d with sum := sum, y := y, q := q }, v) =
      decRound k (n + 1) ({ d' with sum := sum, y := y, q := q }, v) := by
  simp only [decRound, List.range_succ, List.reverse_append, List.reverse_singleton, List.singleton_append,
    List.foldl_cons]
  rfl

/-- R98: there is always a first round. -/
theorem rounds_eq_succ (n : Nat) : rounds n = 5 + 52 / n + 1 := by
  unfold rounds
  omega

/-- ENC on a nonempty block ends alike whatever the datapath registers held before. -/
theorem encBlock_cons_dp (k : KeyFile) (d d' : Datapath) (w : Word) (ws : List Word) :
    encBlock k d (w :: ws) = encBlock k d' (w :: ws) := by
  unfold encBlock
  rw [rounds_eq_succ, encRounds, encRounds]
  exact congrArg (encRounds k _ _) (encRound_dp k ws.length d d' ..)

/-- DEC on a nonempty block ends alike whatever the datapath registers held before. -/
theorem decBlock_cons_dp (k : KeyFile) (d d' : Datapath) (w : Word) (ws : List Word) :
    decBlock k d (w :: ws) = decBlock k d' (w :: ws) := by
  unfold decBlock
  rw [rounds_eq_succ, decRounds, decRounds]
  exact congrArg (decRounds k _ _) (decRound_dp k ws.length d d' ..)

/-- The words ENC writes do not depend on the datapath registers it finds; of an empty block it writes none. -/
theorem encBlock_words_dp (k : KeyFile) (d d' : Datapath) (v : List Word) :
    (encBlock k d v).2 = (encBlock k d' v).2 := by
  cases v with
  | nil => rw [List.length_eq_zero_iff.1 (encBlock_length k d []), List.length_eq_zero_iff.1 (encBlock_length k d' [])]
  | cons w ws => rw [encBlock_cons_dp k d d']

/-- The words DEC writes do not depend on the datapath registers it finds; of an empty block it writes none. -/
theorem decBlock_words_dp (k : KeyFile) (d d' : Datapath) (v : List Word) :
    (decBlock k d v).2 = (decBlock k d' v).2 := by
  cases v with
  | nil => rw [List.length_eq_zero_iff.1 (decBlock_length k d []), List.length_eq_zero_iff.1 (decBlock_length k d' [])]
  | cons w ws => rw [decBlock_cons_dp k d d']

/-! ### The effects -/

/-- Memories that agree on some words still do after the same run of words is stored in both. -/
theorem readWord_writeWords_congr {m m' : Memory} {a n : Nat} (ws : List Word)
    (h : ∀ i, i < n → readWord m' (a + 4 * i) = readWord m (a + 4 * i)) {i : Nat} (hi : i < n) :
    readWord (writeWords m' a ws) (a + 4 * i) = readWord (writeWords m a ws) (a + 4 * i) := by
  by_cases hl : i < ws.length
  · rw [readWord_writeWords_same ws m' a hl, readWord_writeWords_same ws m a hl]
  · rw [readWord_writeWords_other (by omega), readWord_writeWords_other (by omega), h i hi]

/-- States that agree on a command's operands have the same operand words to read (R65). -/
theorem State.sameOperands.words_eq {s t : State} {i : Instr} (h : s.sameOperands t i) :
    t.words (commandBuffer i) (t.operandWords i) = s.words (commandBuffer i) (s.operandWords i) := by
  obtain ⟨hn, hw, -⟩ := h
  rw [hn]
  exact words_congr hw

/-- From states that agree on a command's operands its effect stores the same words, and KEYSET loads the same key. -/
theorem effect_sameOperands {i : Instr} {s t u : State} (h : s.sameOperands t i) (hu : effect i s = .next u) :
    ∃ v ws, effect i t = .next v ∧ u.mem = writeWords s.mem (bufBase (commandBuffer i)) ws ∧
      v.mem = writeWords t.mem (bufBase (commandBuffer i)) ws ∧
      (i = .keyset → v.key = u.key ∧ v.keyValid = u.keyValid) := by
  have hwords := h.words_eq
  have layout {b : Target} {f : List Word → List Word} (hi : layoutOf i = some (b, f))
      (hb : t.words b (t.groups b) = s.words b (s.groups b)) :
      ∃ v ws, effect i t = .next v ∧ u.mem = writeWords s.mem (bufBase b) ws ∧
        v.mem = writeWords t.mem (bufBase b) ws ∧ (i = .keyset → v.key = u.key ∧ v.keyValid = u.keyValid) := by
    obtain ⟨ws, hw, rfl⟩ := adapterEffect_next (effect_layout hi s ▸ hu)
    refine ⟨_, f ws, (effect_layout hi t).trans (adapterEffect_of_words (hb.trans hw)), rfl, rfl, ?_⟩
    rintro rfl
    cases hi
  have cipher {f : KeyFile → Datapath → List Word → Work} (hi : blockOf i = some f)
      (hf : ∀ k d d' v, (f k d v).2 = (f k d' v).2) (hk : t.key = s.key)
      (hb : t.words .data t.blockWords = s.words .data s.blockWords) :
      ∃ v ws, effect i t = .next v ∧ u.mem = writeWords s.mem (bufBase .data) ws ∧
        v.mem = writeWords t.mem (bufBase .data) ws ∧ (i = .keyset → v.key = u.key ∧ v.keyValid = u.keyValid) := by
    obtain ⟨v, hv, rfl⟩ := cipherEffect_next (effect_block hi s ▸ hu)
    refine ⟨_, (f s.key s.dp v).2, (effect_block hi t).trans (cipherEffect_of_words (hb.trans hv)), rfl, ?_, ?_⟩
    · rw [hk, hf s.key t.dp s.dp v]
    · rintro rfl
      cases hi
  obtain ⟨-, -, hkey⟩ := h
  cases i with
  | keyset =>
    obtain ⟨w0, w1, w2, w3, hw, rfl⟩ := effect_keyset_next hu
    exact ⟨_, [], keysetEffect_of_words (hwords.trans hw), rfl, rfl, fun _ => ⟨rfl, rfl⟩⟩
  | enc => exact cipher rfl encBlock_words_dp (hkey (.inl rfl)) hwords
  | dec => exact cipher rfl decBlock_words_dp (hkey (.inr rfl)) hwords
  | revw b => exact layout rfl hwords
  | revb b => exact layout rfl hwords
  | reva b => exact layout rfl hwords

/-- Settles O41: both completions store the same run of words into words that agree. -/
theorem effectsDependOnlyOnTheirOperands : Obligations.EffectsDependOnlyOnTheirOperands := by
  intro s t u i hs ht hop hx
  obtain ⟨u, hu, rfl⟩ := exec_completes hs hx
  obtain ⟨v, ws, hv, hum, hvm, hkey⟩ := effect_sameOperands hop hu
  obtain ⟨-, hw, -⟩ := hop
  refine ⟨v.finish, by rw [exec_busy i ht, hv]; rfl, fun n hn => ?_, hkey⟩
  rw [finish_word, finish_word, State.word, State.word, hum, hvm]
  exact readWord_writeWords_congr ws hw hn

end Sys2Proof.Machine
end

section
/-! The life of a command: which steps run it, what may happen while it is busy, and how it ends (spec/40_command_cycle.md
R74–R79, R86). -/

namespace Sys2Proof.Machine

/-! ### Issue and acceptance (R74, R75) -/

/-- A completion event while idle only leaves the list (log entry 1). -/
theorem step_completion_idle {s : State} (hp : s.phase = .idle) (he : s.nextEvent = .completion) :
    step s = .next s.advance := by
  simp [step_completion he, coreStep, hp]

/-- The core's step while busy is the completion of the command in the phase (R76). -/
theorem step_completion_busy {s : State} {i : Instr} (hp : s.phase = .busy i) (he : s.nextEvent = .completion) :
    step s = exec i s.advance := by
  simp [step_completion he, coreStep, hp]

/-- Settles O5: a word that decodes is its command's encoding, whose write is the issue; the core's step is the completion. -/
theorem stepRunsTheDecodedCommand : Obligations.StepRunsTheDecodedCommand := by
  refine ⟨fun s c i hp he hd => ?_, fun s i => step_completion_busy⟩
  rw [step_write_word (by decide) he, eq_encode_of_decode hd]
  exact hostWrite_encode (s := s.advance) hp i

theorem advance_of_nil {s : State} (h : s.pending = []) : s.advance = { s with readData := none } := by
  rw [State.advance, h, List.tail_nil, ← h]

/-- Settles O7: with no event left the step is the core's, and an idle core does nothing. -/
theorem idleBlockWaits : Obligations.IdleBlockWaits := by
  intro s hp hn
  rw [step_completion_idle hp (nextEvent_of_nil hn), advance_of_nil hn]

/-- Settles O8: a validation that passes answers ok, and the issue then accepts. -/
theorem acceptanceOnlyMarksTheCommand : Obligations.AcceptanceOnlyMarksTheCommand := by
  intro s i hp ha
  refine ⟨?_, busy_of_busy rfl⟩
  rw [exec_idle i hp, verdict_eq_ok.2 ha]
  rfl

/-! ### The busy window (R77, R79) -/

/-- Settles O31: the lockout is `hostWrite_locked`; CTRL, STATUS, ID and the reserved slots do not look at the phase. -/
theorem busyLocksOutWrites : Obligations.BusyLocksOutWrites := by
  intro s i off v hp he
  refine ⟨?locked, ?ctrl, ?status, ?ignored⟩
  case locked =>
    intro hl
    rw [step_write_word (slotAt_locked hl).1 he, hostWrite_locked (s := s.advance) hp hl]
  case ctrl =>
    rintro rfl
    exact (step_write_word (by decide) he).trans (hostWrite_ctrl v s.advance)
  case status =>
    rintro rfl
    exact (step_write_word (by decide) he).trans (hostWrite_status v s.advance)
  case ignored =>
    rintro (rfl | hr)
    · exact step_write_word (by decide) he
    · exact step_write_reserved hr he

/-- `t` is `s` but for what a host access may change while the core is busy: CTRL, DONE, OVR and the read port. The lemmas
`hostRead_busyFrame`, `hostWrite_busyFrame` and `step_busyFrame` tie it to the events. -/
def BusyFrame (s t : State) : Prop :=
  ∃ irqEn done ovr readData draws,
    t = { s with irqEn := irqEn, done := done, ovr := ovr, readData := readData, draws := draws }

theorem hostRead_busyFrame {w : Nat} {s t : State} (h : hostRead w s = .next t) : BusyFrame s t := by
  rcases hostRead_next h with ⟨v, rfl⟩ | ⟨j, -, rfl⟩ <;> exact ⟨_, _, _, _, _, rfl⟩

theorem hostWrite_busyFrame {w : Nat} {v : Word} {s t : State} {i : Instr} (hp : s.phase = .busy i)
    (h : hostWrite w v s = .next t) : BusyFrame s t := by
  rcases hostWrite_busy_next hp h with rfl | rfl | rfl | rfl <;> exact ⟨_, _, _, _, _, rfl⟩

/-- A step from a busy state is a host access within the frame, unless it is the completion or a reset (R79). -/
theorem step_busyFrame {s t : State} {i : Instr} (hp : s.phase = .busy i) (hc : s.nextEvent ≠ .completion)
    (hr : s.nextEvent ≠ .reset) (h : step s = .next t) : BusyFrame s.advance t := by
  rcases step_next h with ⟨off, size, -, -, hx⟩ | ⟨off, size, v, -, -, hx⟩ | ⟨he, -⟩ | ⟨j, he, -⟩ | ⟨he, -⟩
  · exact hostRead_busyFrame hx
  · exact hostWrite_busyFrame (s := s.advance) hp hx
  · exact absurd he hc
  · exact absurd he hc
  · exact absurd he hr

/-- Settles O39: what a completion reads lies outside the frame. -/
theorem inputsAreStableWhileBusy : Obligations.InputsAreStableWhileBusy := by
  intro s t i hp hc hr h
  obtain ⟨_, _, _, _, _, rfl⟩ := step_busyFrame hp hc hr h
  exact ⟨hp, rfl, rfl, rfl, rfl, rfl, rfl⟩

/-! ### Completion (R76, R86) -/

/-- A completion ends the phase and sets DONE (R76). -/
theorem step_completes {s t : State} {i : Instr} (hp : s.phase = .busy i) (he : s.nextEvent = .completion)
    (h : step s = .next t) : ∃ u, effect i s.advance = .next u ∧ t = u.finish :=
  exec_completes (s := s.advance) hp (step_completion_busy hp he ▸ h)

/-- KEY_VALID after an effect: set by KEYSET's, kept by every other (R25). -/
theorem effect_keyValid {i : Instr} {s u : State} (h : effect i s = .next u) :
    u.keyValid = (decide (i = .keyset) || s.keyValid) := by
  by_cases hi : i = .keyset
  · subst hi
    obtain ⟨_, _, _, _, -, rfl⟩ := effect_keyset_next h
    rfl
  · obtain ⟨-, hv⟩ := (effect_key h).resolve_right fun ⟨hk, _⟩ => hi hk
    rw [hv, decide_eq_false hi, Bool.false_or]

/-- Settles O40: an effect leaves ERR and OVR, and ERR is 0 while busy by the invariant. -/
theorem completionLeavesStatusInFixedForm : Obligations.CompletionLeavesStatusInFixedForm := by
  intro s t i hinv hp he h
  obtain ⟨u, hu, rfl⟩ := step_completes hp he h
  obtain ⟨-, -, -, -, -, hovr, herr, -⟩ := effect_frame hu
  obtain ⟨-, -, herr0⟩ := hinv.accepted i hp
  have hvalid := effect_keyValid hu
  exact ⟨busy_of_idle rfl, rfl, herr.trans herr0, hvalid, hovr⟩

/-! ### Progress (R78) -/

/-- Whether a command's operand words are written depends on the buffers and their lengths only. -/
theorem State.operandsWritten.congr {s t : State} {i : Instr} (h : s.operandsWritten i) (hm : t.mem = s.mem)
    (hl : t.len = s.len) (hk : t.keyLen = s.keyLen) : t.operandsWritten i := by
  have hb (b : Target) : t.bufLen b = s.bufLen b := by
    cases b with
    | keybuf => exact hk
    | data => exact hl
  have hn : t.operandWords i = s.operandWords i := by
    cases i <;> simp only [State.operandWords, hb, hl]
  intro n hlt
  rw [State.written, State.word, hm]
  exact h n (hn ▸ hlt)

/-- A busy block whose next event is plain takes it: no operand is unwritten and no access is refused. -/
theorem safe_of_busy {s : State} {i : Instr} (hp : s.phase = .busy i) (hw : s.operandsWritten i)
    (he : plainEvent s.nextEvent) : s.Safe := by
  cases hs : step s with
  | next t => exact ⟨t, hs⟩
  | fault f =>
    obtain ⟨-, ⟨hi, -⟩ | ⟨hi, -⟩ | ⟨j, hj, -, hn⟩⟩ := (faultsExactlyOnUnwrittenReads s f).1 hs
    · exact nomatch hp.symm.trans hi
    · exact nomatch hp.symm.trans hi
    · cases hp.symm.trans hj
      exact absurd hw hn
  | refused r =>
    obtain ⟨-, off, size, hev, hna⟩ := (refusesExactlyOtherAccesses s r).1 hs
    rcases hev with hr | ⟨v, hr⟩ <;> rw [hr] at he <;> exact absurd (wordAccess_iff.1 he) hna

/-- A run takes one step and goes on from the state it answers. -/
theorem run_succ_of_step {s t : State} (h : step s = .next t) (k : Nat) :
    Host.Core.run Sys2Proof.core (k + 1) s = Host.Core.run Sys2Proof.core k t := by
  have hs : Sys2Proof.core.step s = .next t := h
  simp only [Host.Core.run, hs]

/-- The completion of a command whose operands are written ends it in one step (R76). -/
theorem completion_ends {s : State} {i : Instr} (hp : s.phase = .busy i) (hw : s.operandsWritten i)
    (he : s.nextEvent = .completion) : ∃ t, step s = .next t ∧ t.phase = .idle ∧ t.done = true := by
  obtain ⟨t, ht⟩ := safe_of_busy hp hw (he ▸ trivial)
  obtain ⟨u, -, rfl⟩ := step_completes hp he ht
  exact ⟨u.finish, ht, rfl, rfl⟩

/-- A plain event other than the completion leaves a busy command busy, its operands written, and the later events. -/
theorem access_keeps_busy {s : State} {i : Instr} (hp : s.phase = .busy i) (hw : s.operandsWritten i)
    (he : plainEvent s.nextEvent) (hc : s.nextEvent ≠ .completion) :
    ∃ t, step s = .next t ∧ t.phase = .busy i ∧ t.operandsWritten i ∧ t.pending = s.pending.tail := by
  have hr : s.nextEvent ≠ .reset := fun hr => by rw [hr] at he; exact he
  obtain ⟨t, ht⟩ := safe_of_busy hp hw he
  obtain ⟨_, _, _, _, _, rfl⟩ := step_busyFrame hp hc hr ht
  exact ⟨_, ht, hp, hw.congr rfl rfl rfl, rfl⟩

/-- A busy command completes, by induction on the events to come: the next one completes it or is a host access that leaves
it busy with one event less to come, and after the last event comes the completion. -/
theorem run_completes {i : Instr} (es : List Event) {s : State} (hes : s.pending = es) (hp : s.phase = .busy i)
    (hw : s.operandsWritten i) (hplain : ∀ e ∈ es, plainEvent e) :
    ∃ k t, k ≤ es.length + 1 ∧ Host.Core.run Sys2Proof.core k s = .next t ∧ t.phase = .idle ∧ t.done = true := by
  induction es generalizing s with
  | nil =>
    obtain ⟨t, ht, hidle, hdone⟩ := completion_ends hp hw (nextEvent_of_nil hes)
    exact ⟨1, t, by simp, run_succ_of_step ht 0, hidle, hdone⟩
  | cons e es ih =>
    have hnext := nextEvent_of_cons hes
    obtain ⟨he, hplain⟩ := List.forall_mem_cons.1 hplain
    by_cases hc : s.nextEvent = .completion
    · obtain ⟨t, ht, hidle, hdone⟩ := completion_ends hp hw hc
      exact ⟨1, t, by simp, run_succ_of_step ht 0, hidle, hdone⟩
    · obtain ⟨u, hu, hpu, hwu, hrest⟩ := access_keeps_busy hp hw (hnext ▸ he) hc
      obtain ⟨k, t, hk, ht, hend⟩ := ih (by rw [hrest, hes, List.tail_cons]) hpu hwu hplain
      exact ⟨k + 1, t, Nat.succ_le_succ hk, (run_succ_of_step hu k).trans ht, hend⟩

/-- Settles O44: the induction on the pending events. -/
theorem busyCommandCompletes : Obligations.BusyCommandCompletes :=
  fun s _ hp hw hplain => run_completes s.pending rfl hp hw hplain

end Sys2Proof.Machine
end

section
/-! What a completion of REVW, REVB or REVA stores, and what two of them in a row store (spec/41_endian_adapter.md
R87–R93). -/

namespace Sys2Proof.Machine

/-! ### The layouts on lists of words -/

theorem getD_reverseWordOrder {ws : List Word} {g : Nat} (h : g < ws.length) :
    (reverseWordOrder ws).getD g 0#32 = ws.getD (ws.length - 1 - g) 0#32 :=
  congrFun (List.getD_reverse g h) 0#32

theorem getD_reverseBytesPerWord (ws : List Word) (g : Nat) :
    (reverseBytesPerWord ws).getD g 0#32 = bswap32 (ws.getD g 0#32) :=
  List.getD_map ws 0#32 bswap32

/-- R93, on words: REVW, then REVB. -/
theorem reverseBytesPerWord_reverseWordOrder (ws : List Word) :
    reverseBytesPerWord (reverseWordOrder ws) = reverseWhole ws := rfl

/-- R93, on words: REVB, then REVW. -/
theorem reverseWordOrder_reverseBytesPerWord (ws : List Word) :
    reverseWordOrder (reverseBytesPerWord ws) = reverseWhole ws :=
  List.map_reverse.symm

theorem reverseWordOrder_reverseWordOrder (ws : List Word) : reverseWordOrder (reverseWordOrder ws) = ws :=
  List.reverse_reverse ws

theorem reverseBytesPerWord_reverseBytesPerWord (ws : List Word) :
    reverseBytesPerWord (reverseBytesPerWord ws) = ws := by
  have h : bswap32 ∘ bswap32 = id := funext bswap32_bswap32
  simp [reverseBytesPerWord, h]

/-- Both reversals undo themselves and they commute, so their composition undoes itself too. -/
theorem reverseWhole_reverseWhole (ws : List Word) : reverseWhole (reverseWhole ws) = ws := by
  rw [← reverseWordOrder_reverseBytesPerWord, ← reverseBytesPerWord_reverseWordOrder ws,
    reverseBytesPerWord_reverseBytesPerWord, reverseWordOrder_reverseWordOrder]

/-- R92, on words: a byte-layout command's layout undoes itself. -/
theorem layoutOf_involutive {i : Instr} {b : Target} {f : List Word → List Word} (hi : layoutOf i = some (b, f))
    (ws : List Word) : f (f ws) = ws := by
  cases i with
  | keyset | enc | dec => cases hi
  | revw => cases hi; exact reverseWordOrder_reverseWordOrder ws
  | revb => cases hi; exact reverseBytesPerWord_reverseBytesPerWord ws
  | reva => cases hi; exact reverseWhole_reverseWhole ws

/-! ### What storing words leaves of the buffers and their lengths -/

@[simp] theorem setWords_bufLen (s : State) (b c : Target) (ws : List Word) : (s.setWords b ws).bufLen c = s.bufLen c := by
  cases c <;> rfl

@[simp] theorem setWords_groups (s : State) (b c : Target) (ws : List Word) : (s.setWords b ws).groups c = s.groups c := by
  simp [State.groups]

theorem words_setWords (s : State) (b : Target) {n : Nat} {ws : List Word} (h : ws.length = n) :
    (s.setWords b ws).words b n = some ws :=
  h ▸ readWords_writeWords_same ws s.mem (bufBase b)

/-- Storing to words 0 to n-1 of a buffer changes no byte outside them. -/
theorem readByte_setWords_outside (s : State) (b : Target) {n a : Nat} {ws : List Word} (h : ws.length = n)
    (ha : a < wordAddr b 0 ∨ wordAddr b n ≤ a) : readByte (s.setWords b ws).mem a = readByte s.mem a := by
  subst h
  exact readByte_writeWords_other ha

/-! ### One completion (R89–R91) -/

section
variable {i : Instr} {b : Target} {f : List Word → List Word}

theorem layout_accepts (hi : layoutOf i = some (b, f)) (s : State) : Accepts s i ↔ s.legalLayout b := by
  cases i <;> cases hi <;> rfl

/-- R87: what a byte-layout command reads is the words 0 to G-1 of its buffer. -/
theorem layout_words (hi : layoutOf i = some (b, f)) {s : State} (hw : s.operandsWritten i) :
    ∃ ws, s.words b (s.groups b) = some ws := by
  cases i <;> cases hi <;> exact Option.isSome_iff_exists.1 (words_isSome.2 hw)

/-- The completion of a byte-layout command stores the layout of its groups and ends the command. -/
theorem exec_layout (hi : layoutOf i = some (b, f)) {s : State} (hp : s.phase = .busy i) {ws : List Word}
    (hw : s.words b (s.groups b) = some ws) : exec i s = .next (s.setWords b (f ws)).finish := by
  rw [exec_busy i hp, effect_layout hi, adapterEffect_of_words hw]
  rfl

/-- The issue of a byte-layout command with a legal length is accepted (R75, R88). -/
theorem exec_layout_idle (hi : layoutOf i = some (b, f)) {s : State} (hp : s.phase = .idle) (hl : s.legalLayout b) :
    exec i s = .next (s.accept i) :=
  (acceptanceOnlyMarksTheCommand s i hp ((layout_accepts hi s).2 hl)).1

/-- R89 to R91 in one: the completion answers, its groups then hold the layout of the old ones, and it writes
nothing else. -/
theorem layout_completes (hi : layoutOf i = some (b, f)) {s : State} (hp : s.phase = .busy i)
    (hw : s.operandsWritten i) :
    ∃ t ws, s.words b (s.groups b) = some ws ∧ t.words b (s.groups b) = some (f ws) ∧ exec i s = .next t ∧
      t = { s with mem := t.mem, dp := t.dp, phase := .idle, done := true } ∧
      ∀ a, a < wordAddr b 0 ∨ wordAddr b (s.groups b) ≤ a → readByte t.mem a = readByte s.mem a := by
  obtain ⟨ws, hws⟩ := layout_words hi hw
  have hlen : (f ws).length = s.groups b := (layoutOf_length hi ws).trans (words_length hws)
  exact ⟨(s.setWords b (f ws)).finish, ws, hws, words_setWords s b hlen, exec_layout hi hp hws, rfl,
    fun _ ha => readByte_setWords_outside s b hlen ha⟩

end

/-- Settles O18: word `g` of the reversed list is word `G-1-g`, and a byte is a lane of its word. -/
theorem revwReversesWordOrder : Obligations.RevwReversesWordOrder := by
  intro s b hp hw
  obtain ⟨t, ws, hs, ht, hx, hframe, hout⟩ := layout_completes rfl hp hw
  have hget {g : Nat} (hg : g < s.groups b) :
      (reverseWordOrder ws).getD g 0#32 = ws.getD (s.groups b - 1 - g) 0#32 := by
    rw [← words_length hs] at hg ⊢
    exact getD_reverseWordOrder hg
  refine ⟨t, hx, hframe, fun g hg => ?word, fun g j hg hj => ?byte, hout⟩
  case word => rw [word_of_words ht hg, word_of_words hs (by omega), hget hg]
  case byte => rw [byte_of_words ht hg hj, byte_of_words hs (by omega) hj, hget hg]

/-- Settles O19: lane `j` of a swapped word is lane `3 - j`. -/
theorem revbReversesBytesPerWord : Obligations.RevbReversesBytesPerWord := by
  intro s b hp hw
  obtain ⟨t, ws, hs, ht, hx, hframe, hout⟩ := layout_completes rfl hp hw
  refine ⟨t, hx, hframe, fun g j hg hj => ?_, hout⟩
  rw [byte_of_words ht hg hj, byte_of_words hs hg (by omega), getD_reverseBytesPerWord, lane_bswap32 _ hj]

/-- Settles O20: byte `4g + j` comes from lane `3 - j` of word `G-1-g`, which is byte `4G-1-(4g+j)`. -/
theorem revaReversesWhole : Obligations.RevaReversesWhole := by
  intro s b hp hw
  obtain ⟨t, ws, hs, ht, hx, hframe, hout⟩ := layout_completes rfl hp hw
  refine ⟨t, hx, hframe, fun k hk => ?_, hout⟩
  obtain ⟨g, j, hj, rfl⟩ : ∃ g j, j < 4 ∧ k = 4 * g + j := ⟨k / 4, k % 4, by omega, by omega⟩
  have hg : g < s.groups b := by omega
  have hsrc : 4 * s.groups b - 1 - (4 * g + j) = 4 * (s.groups b - 1 - g) + (3 - j) := by omega
  rw [byte_of_words ht hg hj, hsrc, byte_of_words hs (by omega) (by omega), ← reverseBytesPerWord_reverseWordOrder,
    getD_reverseBytesPerWord, getD_reverseWordOrder (words_length hs ▸ hg), words_length hs, lane_bswap32 _ hj]

/-! ### Two completions in a row (R92, R93) -/

/-- After the completion of one byte-layout command a second one on the same buffer is accepted; its completion leaves the
bytes that storing the second layout of the first would leave, and K and KEY_VALID are kept throughout. -/
theorem exec_layout_twice {i j : Instr} {b : Target} {f g : List Word → List Word} (hi : layoutOf i = some (b, f))
    (hj : layoutOf j = some (b, g)) {s : State} (hp : s.phase = .busy i) (hl : s.legalLayout b) {ws : List Word}
    (hw : s.words b (s.groups b) = some ws) :
    ∃ t u v, exec i s = .next t ∧ t.key = s.key ∧ t.keyValid = s.keyValid ∧ exec j t = .next u ∧ u.phase = .busy j ∧
      exec j u = .next v ∧ v.key = s.key ∧ v.keyValid = s.keyValid ∧
      ∀ x, readByte v.mem x = readByte (s.setWords b (g (f ws))).mem x := by
  have hlen : (f ws).length = s.groups b := (layoutOf_length hi ws).trans (words_length hw)
  have hlt : (s.setWords b (f ws)).finish.legalLayout b := by simpa [State.legalLayout] using hl
  have hwt := words_setWords s b hlen
  exact ⟨_, (s.setWords b (f ws)).finish.accept j, _, exec_layout hi hp hw, rfl, rfl, exec_layout_idle hj rfl hlt, rfl,
    exec_layout hj rfl (by simpa using hwt), rfl, rfl,
    readByte_writeWords_writeWords (layoutOf_length hj (f ws)).symm s.mem (bufBase b)⟩

/-- Settles O21: the layout undoes itself, and storing the words that were there changes no byte. -/
theorem adapterIsAnInvolution : Obligations.AdapterIsAnInvolution := by
  intro s b i hi hp hl hw
  obtain ⟨f, hf⟩ : ∃ f, layoutOf i = some (b, f) := by
    rcases hi with rfl | rfl | rfl <;> exact ⟨_, rfl⟩
  obtain ⟨ws, hws⟩ := layout_words hf hw
  obtain ⟨t, u, v, ht, -, -, hu, hpu, hv, -, -, hmem⟩ := exec_layout_twice hf hf hp hl hws
  refine ⟨t, u, v, ht, hu, hpu, hv, fun a => ?_⟩
  rw [hmem, layoutOf_involutive hf]
  exact readByte_writeWords_of_readWords hws a

/-- Settles O22: both orders store the layout of REVA. -/
theorem revaIsBothCompositions : Obligations.RevaIsBothCompositions := by
  intro s b hl hw
  obtain ⟨ws, hws⟩ := layout_words (f := reverseWhole) rfl hw
  have hreva := exec_layout (i := .reva b) (s := { s with phase := .busy (.reva b) }) rfl rfl hws
  obtain ⟨t, u, wb, ht, htk, htv, hu, -, hwb, hwbk, hwbv, hwbm⟩ :=
    exec_layout_twice (i := .revw b) (j := .revb b) (s := { s with phase := .busy (.revw b) }) rfl rfl rfl hl hws
  obtain ⟨t', u', bw, ht', htk', htv', hu', -, hbw, hbwk, hbwv, hbwm⟩ :=
    exec_layout_twice (i := .revb b) (j := .revw b) (s := { s with phase := .busy (.revb b) }) rfl rfl rfl hl hws
  rw [reverseBytesPerWord_reverseWordOrder] at hwbm
  rw [reverseWordOrder_reverseBytesPerWord] at hbwm
  exact ⟨_, wb, bw, hreva, ⟨t, u, ht, htk, htv, hu, hwb⟩, ⟨t', u', ht', htk', htv', hu', hbw⟩,
    fun x => ⟨hwbm x, hbwm x⟩, rfl, rfl, hwbk, hwbv, hbwk, hbwv⟩

end Sys2Proof.Machine
end

section
/-! What the completion of KEYSET loads (spec/42_key_constructor.md R94, R95). -/

namespace Sys2Proof.Machine

/-- R43 as a number: the byte at the lowest index weighs most. -/
theorem toNat_be32 (b0 b1 b2 b3 : Byte) :
    (be32 b0 b1 b2 b3).toNat = b0.toNat * 2 ^ 24 + b1.toNat * 2 ^ 16 + b2.toNat * 2 ^ 8 + b3.toNat := by
  simp only [be32, toNat_append_eq_add]
  omega

theorem toNat_eq_sum_lanes (w : Word) :
    w.toNat = (lane w 0).toNat * 2 ^ 24 + (lane w 1).toNat * 2 ^ 16 + (lane w 2).toNat * 2 ^ 8 + (lane w 3).toNat := by
  rw [← toNat_be32, be32_lanes]

/-- K[n] is the n-th of the words the key was loaded from. -/
theorem get_keyOfWords (ws : List Word) {n : Nat} (h : n < 4) :
    (keyOfWords ws).get (BitVec.ofNat 2 n) = ws.getD n 0#32 := by
  match n, h with
  | 0, _ => rfl
  | 1, _ => rfl
  | 2, _ => rfl
  | 3, _ => rfl

/-- Settles O14: K[n] is KB[n], whose lanes are the four bytes. -/
theorem keyWordsAreBigEndian : Obligations.KeyWordsAreBigEndian := by
  intro s t hp hx n hn
  obtain ⟨u, hu, rfl⟩ := exec_completes hp hx
  obtain ⟨w0, w1, w2, w3, hw, rfl⟩ := effect_keyset_next hu
  have hbyte (j : Nat) (hj : j < 4) := byte_of_words hw hn hj
  have hkey : (KeyFile.mk w0 w1 w2 w3).get (BitVec.ofNat 2 n) = [w0, w1, w2, w3].getD n 0#32 :=
    get_keyOfWords [w0, w1, w2, w3] hn
  refine ⟨_, _, _, _, hbyte 0 (by omega), hbyte 1 (by omega), hbyte 2 (by omega), hbyte 3 (by omega), ?_⟩
  rw [finish_key, hkey, ← toNat_eq_sum_lanes]

/-- The completion of KEYSET on four readable key words loads them and ends the command. -/
theorem exec_keyset_of_words {s : State} {w0 w1 w2 w3 : Word} (hp : s.phase = .busy .keyset)
    (hw : s.words .keybuf 4 = some [w0, w1, w2, w3]) :
    exec .keyset s = .next { s with key := ⟨w0, w1, w2, w3⟩, keyValid := true }.finish := by
  rw [exec_busy .keyset hp, effect, keysetEffect_of_words hw]
  rfl

/-- Settles O13: the completion is the load and the end of the command, which write these four fields. -/
theorem keysetLoadsTheKey : Obligations.KeysetLoadsTheKey :=
  fun _ _ _ _ _ hp h0 h1 h2 h3 => ⟨_, exec_keyset_of_words hp (words_keybuf_four.2 ⟨h0, h1, h2, h3⟩), rfl⟩

end Sys2Proof.Machine
end

section
/-! The round mixer: the datapath registers a completion finds, the sums of the rounds, the round counts, and MX
(spec/43_round_mixer.md R98–R110). -/

namespace Sys2Proof.Machine

/-! ### The datapath registers a completion finds (R110) -/

/-- The effect of a cipher command on a block with an unwritten word (R29). -/
theorem cipherEffect_of_unwritten {f : KeyFile → Datapath → List Word → Work} {s : State}
    (h : s.words .data s.blockWords = none) : cipherEffect f s = .fault .unwrittenRead :=
  onWords_fault.2 ⟨rfl, h⟩

/-- A cipher effect whose block function forgets the registers it finds on a nonempty block forgets them. -/
theorem cipherEffect_dp {f : KeyFile → Datapath → List Word → Work}
    (hf : ∀ k d d' w ws, f k d (w :: ws) = f k d' (w :: ws)) {s : State} (hn : 0 < s.blockWords) (d : Datapath) :
    cipherEffect f { s with dp := d } = cipherEffect f s := by
  cases hw : s.words .data s.blockWords with
  | none => rw [cipherEffect_of_unwritten hw, cipherEffect_of_unwritten (s := { s with dp := d }) hw]
  | some v =>
    obtain ⟨w, ws, rfl⟩ := List.exists_cons_of_length_pos (words_length hw ▸ hn)
    rw [cipherEffect_of_words hw, cipherEffect_of_words (s := { s with dp := d }) hw, hf s.key d s.dp]

/-- Settles O24: a block of legal length is not empty, and the first update of its first round writes every register
that the opening of the command did not. -/
theorem noMixerStateSurvives : Obligations.NoMixerStateSurvives := by
  rintro s i d hi hp ⟨hmin, -, -⟩
  have hn : 0 < s.blockWords := Nat.div_pos (by omega) (by decide)
  rw [exec_busy i hp, exec_busy (s := { s with dp := d }) i hp]
  refine congrArg complete ?_
  rcases hi with rfl | rfl
  · exact cipherEffect_dp encBlock_cons_dp hn d
  · exact cipherEffect_dp decBlock_cons_dp hn d

/-! ### The sums of the rounds (R99) -/

theorem encRound_sum (k : KeyFile) (n : Nat) (c : Work) : (encRound k n c).1.sum = c.1.sum + Config.delta := by
  rw [encRound, foldl_keeps (encUpdate k (n - 1)) (fun c => c.1.sum) (by simp), openRound_sum]

theorem decRound_sum (k : KeyFile) (n : Nat) (c : Work) : (decRound k n c).1.sum = c.1.sum - Config.delta := by
  rw [decRound, closeRound_sum]

theorem chainSum_zero : chainSum 0 = 0#32 := BitVec.zero_mul

/-- R99: the sum of a round is DELTA more than the sum of the round before. -/
theorem chainSum_succ (r : Nat) : chainSum (r + 1) = Config.delta + chainSum r := by
  rw [chainSum, chainSum, BitVec.ofNat_add, BitVec.add_mul, BitVec.one_mul, BitVec.add_comm, Config.delta]

theorem encRounds_sum (k : KeyFile) (n r : Nat) (c : Work) : (encRounds k n r c).1.sum = c.1.sum + chainSum r := by
  induction r generalizing c with
  | zero => rw [encRounds, chainSum_zero, BitVec.add_zero]
  | succ r ih => rw [encRounds, ih, encRound_sum, chainSum_succ, BitVec.add_assoc]

theorem decRounds_sum (k : KeyFile) (n r : Nat) (c : Work) : (decRounds k n r c).1.sum = c.1.sum - chainSum r := by
  induction r generalizing c with
  | zero => rw [decRounds, chainSum_zero, BitVec.sub_zero]
  | succ r ih => rw [decRounds, ih, decRound_sum, chainSum_succ, sub_sub]

/-- Settles O26: each round moves the sum by DELTA, which its updates do not touch. -/
theorem roundSumsAreMultiplesOfDelta : Obligations.RoundSumsAreMultiplesOfDelta :=
  fun k n r c => ⟨encRounds_sum k n r c, decRounds_sum k n r c⟩

/-! ### The round counts and the round indices (R98, R100, R109) -/

/-- R98: the round count is 6 + q where q blocks of `n` words fit into 52 and q + 1 do not. -/
theorem rounds_eq_of_fits {n q : Nat} (hlo : q * n ≤ 52) (hhi : 52 < (q + 1) * n) : rounds n = 6 + q := by
  rw [rounds, Nat.div_eq_of_lt_le hlo hhi]

/-- With the round count of R98, the sum of R99. -/
theorem rounds_and_sum_of_fits {n q : Nat} (hlo : q * n ≤ 52) (hhi : 52 < (q + 1) * n) :
    rounds n = 6 + q ∧ chainSum (rounds n) = chainSum (6 + q) :=
  have h := rounds_eq_of_fits hlo hhi
  ⟨h, congrArg chainSum h⟩

/-- The table of R98 and R99 for the lengths that have a row of their own. -/
theorem rounds_table_short : ∀ n ∈ List.range' 3 8, (n, rounds n, chainSum (rounds n)) ∈
    [(3, 23, 0x36FBEF9F#32), (4, 19, 0xBE1E08BB#32), (5, 16, 0xE3779B90#32), (6, 14, 0xA708A81E#32),
      (7, 13, 0x08D12E65#32), (8, 12, 0x6A99B4AC#32), (9, 11, 0xCC623AF3#32), (10, 11, 0xCC623AF3#32)] := by
  decide

/-- Settles O25: short blocks by the table, longer ones by how often they fit into 52 words. -/
theorem roundCountsAndInitialSums : Obligations.RoundCountsAndInitialSums := by
  intro n hn h3
  have hlt : n < 53 := List.mem_range.1 hn
  obtain h | ⟨hlo, hhi⟩ | ⟨hlo, hhi⟩ | ⟨hlo, hhi⟩ | h :
      n ≤ 10 ∨ (11 ≤ n ∧ n ≤ 13) ∨ (14 ≤ n ∧ n ≤ 17) ∨ (18 ≤ n ∧ n ≤ 26) ∨ 27 ≤ n := by omega
  · exact .inl (rounds_table_short n (List.mem_range'_1.2 (by omega)))
  · exact .inr (.inl ⟨hlo, hhi, rounds_and_sum_of_fits (q := 4) (by omega) (by omega)⟩)
  · exact .inr (.inr (.inl ⟨hlo, hhi, rounds_and_sum_of_fits (q := 3) (by omega) (by omega)⟩))
  · exact .inr (.inr (.inr (.inl ⟨hlo, hhi, rounds_and_sum_of_fits (q := 2) (by omega) (by omega)⟩)))
  · exact .inr (.inr (.inr (.inr ⟨h, rounds_and_sum_of_fits (q := 1) (by omega) (by omega)⟩)))

/-- Settles O27: 23 closed values, computed. -/
theorem roundIndicesFollowTheTable : Obligations.RoundIndicesFollowTheTable := by
  unfold Obligations.RoundIndicesFollowTheTable
  decide

/-! ### MX (R102, R106) -/

/-- R106: where both neighbours are 0, no shift contributes and MX is the sum of the round sum and the key word. -/
theorem mx_zero_zero (s k : Word) : mx 0#32 0#32 s k = s + k := by
  simp only [mx, BitVec.zero_ushiftRight, BitVec.zero_shiftLeft, BitVec.xor_zero, BitVec.add_zero, BitVec.zero_xor]

/-- Settles O28: the identity of two zero neighbours, and three closed values. -/
theorem mxIdentities : Obligations.MxIdentities :=
  ⟨mx_zero_zero, by decide, by decide, by decide⟩

end Sys2Proof.Machine
end

section
/-! The two cipher commands as completions, and the encryptor's sequencer as the chain of word updates of R112
(spec/44_encryptor.md R111–R113; spec/45_decryptor.md R120). -/

namespace Sys2Proof.Machine

/-! ### One completion of ENC or DEC (R113, R120) -/

section
variable {i : Instr} {f : KeyFile → Datapath → List Word → Work}

theorem blockOf_length (hi : blockOf i = some f) (k : KeyFile) (d : Datapath) (v : List Word) :
    (f k d v).2.length = v.length := by
  cases i with
  | enc => cases hi; exact encBlock_length k d v
  | dec => cases hi; exact decBlock_length k d v
  | _ => cases hi

/-- The completion of a cipher command stores the transformed block and the registers it ends with, and ends the
command. -/
theorem exec_block (hi : blockOf i = some f) {s : State} (hp : s.phase = .busy i) {v : List Word}
    (hv : s.words .data s.blockWords = some v) :
    exec i s = .next ({ s.setWords .data (f s.key s.dp v).2 with dp := (f s.key s.dp v).1 } : State).finish := by
  rw [exec_busy i hp, effect_block hi, cipherEffect_of_words hv]
  rfl

/-- A cipher command that completes has read its whole block (R29). -/
theorem block_words (hi : blockOf i = some f) {s t : State} (hp : s.phase = .busy i) (h : exec i s = .next t) :
    ∃ v, s.words .data s.blockWords = some v := by
  obtain ⟨u, hu, -⟩ := exec_completes hp h
  obtain ⟨v, hv, -⟩ := cipherEffect_next (effect_block hi s ▸ hu)
  exact ⟨v, hv⟩

/-- The completion of a cipher command on a readable block: the block then holds its transform, and nothing else is
written. -/
theorem block_completes (hi : blockOf i = some f) {s : State} (hp : s.phase = .busy i) {v : List Word}
    (hv : s.words .data s.blockWords = some v) :
    ∃ t, exec i s = .next t ∧ t = { s with mem := t.mem, dp := t.dp, phase := .idle, done := true } ∧
      t.words .data s.blockWords = some (f s.key s.dp v).2 ∧
      ∀ a, a < wordAddr .data 0 ∨ wordAddr .data s.blockWords ≤ a → readByte t.mem a = readByte s.mem a := by
  have hlen : (f s.key s.dp v).2.length = s.blockWords := (blockOf_length hi ..).trans (words_length hv)
  exact ⟨_, exec_block hi hp hv, rfl, words_setWords s .data hlen,
    fun _ ha => readByte_setWords_outside s .data hlen ha⟩

end

/-- Settles O17: a cipher command that answers has stored as many words as its block has. -/
theorem cipherWritesOnlyTheBlock : Obligations.CipherWritesOnlyTheBlock := by
  intro s t i hi hp hx
  obtain ⟨f, hf⟩ : ∃ f, blockOf i = some f := by
    rcases hi with rfl | rfl
    · exact ⟨encBlock, rfl⟩
    · exact ⟨decBlock, rfl⟩
  obtain ⟨v, hv⟩ := block_words hf hp hx
  obtain ⟨t', hx', hframe, hw, hout⟩ := block_completes hf hp hv
  obtain rfl : t' = t := Host.Outcome.next.inj (hx'.symm.trans hx)
  exact ⟨hframe, hout, words_isSome.1 (Option.isSome_of_eq_some hw)⟩

/-! ### One encryption round (R111, R112) -/

/-- The carried scalars as R112 reads them before the update of position `p` in a round of sum `sum`: `e` is the round's
index, and `z` holds the left neighbour of `p` as it stands now. -/
def EncAt (sum : Word) (p : Nat) (c : Work) : Prop :=
  c.1.sum = sum ∧ c.1.e = roundIndex sum ∧ c.1.z = c.2.getD ((p + c.2.length - 1) % c.2.length) 0#32

/-- The core between two encryption rounds: `z` holds the last word of the block (R111). -/
def HoldsLast (c : Work) : Prop := c.1.z = c.2.getD (c.2.length - 1) 0#32

/-- The position the pseudocode of R111 takes `y` from is the right neighbour modulo the length. -/
theorem rightNeighbour_eq_mod {n p : Nat} (h : p < n) : (if p = n - 1 then 0 else p + 1) = (p + 1) % n := by
  split
  · rw [show p + 1 = n by omega, Nat.mod_self]
  · rw [Nat.mod_eq_of_lt (by omega)]

/-- The left neighbour of `p + 1` is `p`. -/
theorem leftNeighbour_succ {n p : Nat} (h : p < n) : (p + 1 + n - 1) % n = p := by
  rw [show p + 1 + n - 1 = p + n by omega, Nat.add_mod_right, Nat.mod_eq_of_lt h]

/-- With the scalars as R112 reads them, the sequencer's update is the chain's. -/
theorem EncAt.encUpdate_snd {sum : Word} {p : Nat} {c : Work} (h : EncAt sum p c) (k : KeyFile) (hp : p < c.2.length) :
    (encUpdate k (c.2.length - 1) c p).2 = encChainUpdate k sum c.2 p := by
  obtain ⟨hsum, he, hz⟩ := h
  simp only [encUpdate, encChainUpdate, chainMx, rightNeighbour_eq_mod hp, hsum, he, hz]

/-- The word just written is the left neighbour of the next position. -/
theorem EncAt.succ {sum : Word} {p : Nat} {c : Work} (h : EncAt sum p c) (k : KeyFile) (l : Nat) (hp : p < c.2.length) :
    EncAt sum (p + 1) (encUpdate k l c p) := by
  obtain ⟨hsum, he, -⟩ := h
  refine ⟨(encUpdate_sum ..).trans hsum, (encUpdate_e ..).trans he, ?_⟩
  rw [encUpdate_length, leftNeighbour_succ hp]
  simp [encUpdate, hp]

/-- The first `m` updates of a round are the chain's, and leave the scalars right for position `m`. -/
theorem EncAt.foldl_encUpdate {sum : Word} {c : Work} (h : EncAt sum 0 c) (k : KeyFile) {m : Nat}
    (hm : m ≤ c.2.length) :
    ((List.range m).foldl (encUpdate k (c.2.length - 1)) c).2 = (List.range m).foldl (encChainUpdate k sum) c.2 ∧
      EncAt sum m ((List.range m).foldl (encUpdate k (c.2.length - 1)) c) := by
  induction m with
  | zero => exact ⟨rfl, h⟩
  | succ m ih =>
    obtain ⟨hw, hat⟩ := ih (by omega)
    have hlen := foldl_keeps (encUpdate k (c.2.length - 1)) (fun c => c.2.length) (by simp) (List.range m) c
    have hupd := hat.encUpdate_snd k (by omega)
    rw [hlen, hw] at hupd
    simp only [List.range_succ, List.foldl_concat]
    exact ⟨hupd, hat.succ k _ (by omega)⟩

/-- The opening of a round makes its scalars right for position 0, whose left neighbour is the last word. -/
theorem HoldsLast.openRound {c : Work} (h : HoldsLast c) (hn : 0 < c.2.length) (sum : Word) :
    EncAt sum 0 (openRound sum c) := by
  refine ⟨openRound_sum .., openRound_e .., ?_⟩
  rw [openRound_z, openRound_snd, Nat.zero_add, Nat.mod_eq_of_lt (by omega)]
  exact h

/-- After the last position of a round its left neighbour is the last word. -/
theorem EncAt.holdsLast {sum : Word} {c : Work} (h : EncAt sum c.2.length c) (hn : 0 < c.2.length) : HoldsLast c := by
  obtain ⟨-, -, hz⟩ := h
  rw [HoldsLast, hz, show c.2.length + c.2.length - 1 = c.2.length - 1 + c.2.length by omega, Nat.add_mod_right,
    Nat.mod_eq_of_lt (by omega)]

/-- R112: a round is the chain's pass over positions 0 to N-1, and hands the last word on in `z`. -/
theorem HoldsLast.encRound {c : Work} (h : HoldsLast c) (hn : 0 < c.2.length) (k : KeyFile) :
    (encRound k c.2.length c).2 = (List.range c.2.length).foldl (encChainUpdate k (c.1.sum + Config.delta)) c.2 ∧
      HoldsLast (encRound k c.2.length c) := by
  obtain ⟨hw, hat⟩ := (h.openRound hn (c.1.sum + Config.delta)).foldl_encUpdate k le_rfl
  simp only [openRound_snd] at hw hat
  have hend : EncAt (c.1.sum + Config.delta) (Machine.encRound k c.2.length c).2.length
      (Machine.encRound k c.2.length c) := by
    rw [encRound_length]
    exact hat
  exact ⟨hw, hend.holdsLast (hn.trans_eq (encRound_length ..).symm)⟩

/-! ### The rounds (R112) -/

/-- `r + 1` rounds are `r` rounds and one more. -/
theorem encRounds_succ_last (k : KeyFile) (n r : Nat) (c : Work) :
    encRounds k n (r + 1) c = encRound k n (encRounds k n r c) := by
  induction r generalizing c with
  | zero => rfl
  | succ r ih => rw [encRounds, ih, encRounds]

/-- R112: from `sum = 0`, `r` rounds are the first `r` passes of the chain. -/
theorem HoldsLast.encRounds {c : Work} (h : HoldsLast c) (hn : 0 < c.2.length) (hs : c.1.sum = 0#32) (k : KeyFile)
    (r : Nat) :
    (encRounds k c.2.length r c).2 =
        (List.range r).foldl (fun w r => (List.range c.2.length).foldl (encChainUpdate k (chainSum (r + 1))) w) c.2 ∧
      HoldsLast (encRounds k c.2.length r c) := by
  induction r with
  | zero => exact ⟨rfl, h⟩
  | succ r ih =>
    obtain ⟨hw, hlast⟩ := ih
    have hlen := encRounds_length k c.2.length r c
    have hsum : (Machine.encRounds k c.2.length r c).1.sum + Config.delta = chainSum (r + 1) := by
      rw [encRounds_sum, hs, BitVec.zero_add, chainSum_succ, BitVec.add_comm]
    have hround := hlast.encRound (hn.trans_eq hlen.symm) k
    rw [hlen, hsum, hw] at hround
    rw [encRounds_succ_last, List.range_succ, List.foldl_concat]
    exact hround

/-- R112: the encryption of a nonempty block is its chain of word updates. -/
theorem encBlock_eq_encChain (k : KeyFile) (d : Datapath) {v : List Word} (hn : 0 < v.length) :
    (encBlock k d v).2 = encChain k v :=
  have h : HoldsLast ({ d with sum := 0#32, z := v.getD (v.length - 1) 0#32, q := 0#5 }, v) := rfl
  (h.encRounds hn rfl k _).1

/-- Settles O15: a block of legal length is not empty, and the carried scalars of R111 are always the left neighbour,
the sum and the round index that R112 reads. -/
theorem encIsItsChainOfUpdates : Obligations.EncIsItsChainOfUpdates := by
  rintro s v hp ⟨hmin, -, -⟩ hv
  have hn : 0 < v.length := words_length hv ▸ Nat.div_pos (by omega) (by decide)
  obtain ⟨t, hx, ht, hw, -⟩ := block_completes rfl hp hv
  rw [encBlock_eq_encChain _ _ hn] at hw
  exact ⟨t, hx, by rw [ht], by rw [ht], hw⟩

end Sys2Proof.Machine
end

section
/-! The decryptor's sequencer as the chain of word updates of R118, and ENC and DEC undoing each other
(spec/45_decryptor.md R117–R119). -/

namespace Sys2Proof.Machine

/-! ### One decryption round (R117, R118) -/

/-- The carried scalars as R118 reads them in a round of sum `sum` with the positions below `m` still to update: `e` is the
round's index, and `y` holds word `m`, the right neighbour of the next position, as it stands now. -/
def DecAt (sum : Word) (m : Nat) (c : Work) : Prop :=
  c.1.sum = sum ∧ c.1.e = roundIndex sum ∧ c.1.y = c.2.getD (m % c.2.length) 0#32

/-- The core between two decryption rounds: `y` holds the first word of the block (R117). -/
def HoldsFirst (c : Work) : Prop := c.1.y = c.2.getD 0 0#32

/-- The position the pseudocode of R117 takes `z` from is the left neighbour modulo the length. -/
theorem leftNeighbour_eq_mod {n p : Nat} (h : p < n) : (if p = 0 then n - 1 else p - 1) = (p + n - 1) % n := by
  split
  · rw [Nat.mod_eq_of_lt (by omega)]
    omega
  · rw [show p + n - 1 = p - 1 + n by omega, Nat.add_mod_right, Nat.mod_eq_of_lt (by omega)]

/-- With the scalars as R118 reads them, the sequencer's update is the chain's. -/
theorem DecAt.decUpdate_snd {sum : Word} {p : Nat} {c : Work} (h : DecAt sum (p + 1) c) (k : KeyFile)
    (hp : p < c.2.length) : (decUpdate k (c.2.length - 1) c p).2 = decChainUpdate k sum c.2 p := by
  obtain ⟨hsum, he, hy⟩ := h
  simp only [decUpdate, decChainUpdate, chainMx, leftNeighbour_eq_mod hp, hsum, he, hy]

/-- The word just written is the right neighbour of the next position down. -/
theorem DecAt.pred {sum : Word} {p : Nat} {c : Work} (h : DecAt sum (p + 1) c) (k : KeyFile) (l : Nat)
    (hp : p < c.2.length) : DecAt sum p (decUpdate k l c p) := by
  obtain ⟨hsum, he, -⟩ := h
  refine ⟨(decUpdate_sum ..).trans hsum, (decUpdate_e ..).trans he, ?_⟩
  rw [decUpdate_length, Nat.mod_eq_of_lt hp]
  simp [decUpdate, hp]

/-- The last `m` updates of a round are the chain's, and leave the scalars right below position 0. -/
theorem DecAt.foldl_decUpdate {sum : Word} {m : Nat} {c : Work} (h : DecAt sum m c) (k : KeyFile)
    (hm : m ≤ c.2.length) :
    ((List.range m).reverse.foldl (decUpdate k (c.2.length - 1)) c).2 =
        (List.range m).reverse.foldl (decChainUpdate k sum) c.2 ∧
      DecAt sum 0 ((List.range m).reverse.foldl (decUpdate k (c.2.length - 1)) c) := by
  induction m generalizing c with
  | zero => exact ⟨rfl, h⟩
  | succ m ih =>
    have htail := ih (h.pred k (c.2.length - 1) hm) (by rw [decUpdate_length]; omega)
    rw [decUpdate_length, h.decUpdate_snd k hm] at htail
    rw [List.range_succ, List.reverse_concat, List.foldl_cons, List.foldl_cons]
    exact htail

/-- The opening of a round makes its scalars right above the last position, whose right neighbour is the first word. -/
theorem HoldsFirst.openRound {c : Work} (h : HoldsFirst c) (sum : Word) :
    DecAt sum c.2.length (openRound sum c) := by
  refine ⟨openRound_sum .., openRound_e .., ?_⟩
  rw [openRound_y, openRound_snd, Nat.mod_self]
  exact h

/-- R118: a round is the chain's pass over positions N-1 to 0, and hands the first word on in `y`. -/
theorem HoldsFirst.decRound {c : Work} (h : HoldsFirst c) (k : KeyFile) :
    (decRound k c.2.length c).2 = (List.range c.2.length).reverse.foldl (decChainUpdate k c.1.sum) c.2 ∧
      HoldsFirst (decRound k c.2.length c) := by
  obtain ⟨hw, -, -, hy⟩ := (h.openRound c.1.sum).foldl_decUpdate k (by rw [openRound_snd])
  rw [openRound_snd] at hw hy
  rw [Nat.zero_mod] at hy
  exact ⟨hw, hy⟩

/-! ### The rounds (R118) -/

/-- R118: from the sum of round `r`, `r` rounds are the passes of the chain for the rounds `r` down to 1. -/
theorem HoldsFirst.decRounds_snd {r : Nat} {c : Work} (h : HoldsFirst c) (hs : c.1.sum = chainSum r) (k : KeyFile) :
    (decRounds k c.2.length r c).2 = (List.range r).reverse.foldl
      (fun w r => (List.range c.2.length).reverse.foldl (decChainUpdate k (chainSum (r + 1))) w) c.2 := by
  induction r generalizing c with
  | zero => rfl
  | succ r ih =>
    obtain ⟨hw, hfirst⟩ := h.decRound k
    have hsum : (Machine.decRound k c.2.length c).1.sum = chainSum r := by
      rw [decRound_sum, hs, chainSum_succ, add_sub_cancel_left]
    have htail := ih hfirst hsum
    rw [decRound_length, hw, hs] at htail
    rw [decRounds, List.range_succ, List.reverse_concat, List.foldl_cons]
    exact htail

/-- R118: the decryption of a block is its chain of word updates. -/
theorem decBlock_eq_decChain (k : KeyFile) (d : Datapath) (v : List Word) : (decBlock k d v).2 = decChain k v :=
  have h : HoldsFirst ({ d with sum := chainSum (rounds v.length), y := v.getD 0 0#32, q := 0#5 }, v) := rfl
  h.decRounds_snd rfl k

/-- Settles O16: the carried scalars of R117 are always the right neighbour, the sum and the round index that R118 reads. -/
theorem decIsItsChainOfUpdates : Obligations.DecIsItsChainOfUpdates := by
  intro s v hp _ hv
  obtain ⟨t, hx, ht, hw, -⟩ := block_completes rfl hp hv
  rw [decBlock_eq_decChain] at hw
  exact ⟨t, hx, by rw [ht], by rw [ht], hw⟩

/-! ### The two chains undo each other (R119) -/

/-- On blocks of `n` words `f` and `g` keep the length and each takes back what the other did. -/
def UndoEachOther (n : Nat) (f g : List Word → List Word) : Prop :=
  ∀ v, v.length = n → ((f v).length = n ∧ g (f v) = v) ∧ (g v).length = n ∧ f (g v) = v

/-- Two steps are undone by undoing the later one first. -/
theorem UndoEachOther.comp {n : Nat} {f g f' g' : List Word → List Word} (h : UndoEachOther n f g)
    (h' : UndoEachOther n f' g') : UndoEachOther n (fun v => f' (f v)) (fun v => g (g' v)) := by
  intro v hv
  obtain ⟨⟨hf, hgf⟩, -⟩ := h v hv
  obtain ⟨-, hg', hfg'⟩ := h' v hv
  obtain ⟨⟨hf', hgf'⟩, -⟩ := h' (f v) hf
  obtain ⟨-, hg, hfg⟩ := h (g' v) hg'
  simp only [hgf', hfg]
  exact ⟨⟨hf', hgf⟩, hg, hfg'⟩

/-- Steps over a list are undone by undoing them one by one over the reversed list. -/
theorem UndoEachOther.foldl {β : Type} {n : Nat} {f g : List Word → β → List Word} {l : List β}
    (h : ∀ b ∈ l, UndoEachOther n (f · b) (g · b)) : UndoEachOther n (l.foldl f ·) (l.reverse.foldl g ·) := by
  induction l with
  | nil => exact fun v hv => ⟨⟨hv, rfl⟩, hv, rfl⟩
  | cons b l ih =>
    simp only [List.foldl_cons, List.reverse_cons, List.foldl_concat]
    exact (h b List.mem_cons_self).comp (ih fun c hc => h c (List.mem_cons_of_mem b hc))

/-- In a block of two words or more no position is its own neighbour, so MX at a position does not see the word there. -/
theorem chainMx_set (k : KeyFile) (sum w : Word) {v : List Word} {p : Nat} (hp : p < v.length) (h2 : 2 ≤ v.length) :
    chainMx k sum (v.set p w) p = chainMx k sum v p := by
  have hright : p ≠ (p + 1) % v.length := by
    rw [← rightNeighbour_eq_mod hp]
    split <;> omega
  have hleft : p ≠ (p + v.length - 1) % v.length := by
    rw [← leftNeighbour_eq_mod hp]
    split <;> omega
  simp only [chainMx, List.length_set, List.getD_eq_getElem?_getD, List.getElem?_set_ne hright,
    List.getElem?_set_ne hleft]

/-- R119 for one update: what ENC adds to a word DEC takes off and the reverse, for MX at its position is the same. -/
theorem chainUpdates_undoEachOther (k : KeyFile) (sum : Word) {n p : Nat} (hp : p < n) (h2 : 2 ≤ n) :
    UndoEachOther n (encChainUpdate k sum · p) (decChainUpdate k sum · p) := by
  rintro v rfl
  have hmx := fun w => chainMx_set k sum w hp h2
  refine ⟨⟨encChainUpdate_length .., ?_⟩, decChainUpdate_length .., ?_⟩ <;>
    simp [encChainUpdate, decChainUpdate, hmx, hp]

/-- R119 for the first `r` rounds: their updates are undone one by one, the last one first. -/
theorem chainRounds_undoEachOther (k : KeyFile) {n : Nat} (h2 : 2 ≤ n) (r : Nat) :
    UndoEachOther n
      ((List.range r).foldl (fun w r => (List.range n).foldl (encChainUpdate k (chainSum (r + 1))) w) ·)
      ((List.range r).reverse.foldl (fun w r => (List.range n).reverse.foldl (decChainUpdate k (chainSum (r + 1))) w) ·) :=
  .foldl fun r _ => .foldl fun _ hp => chainUpdates_undoEachOther k (chainSum (r + 1)) (List.mem_range.1 hp) h2

theorem decChain_encChain (k : KeyFile) {v : List Word} (h2 : 2 ≤ v.length) : decChain k (encChain k v) = v := by
  obtain ⟨⟨hlen, hundo⟩, -⟩ := chainRounds_undoEachOther k h2 (6 + 52 / v.length) v rfl
  rw [decChain, show (encChain k v).length = v.length from hlen]
  exact hundo

theorem encChain_decChain (k : KeyFile) {v : List Word} (h2 : 2 ≤ v.length) : encChain k (decChain k v) = v := by
  obtain ⟨-, hlen, hundo⟩ := chainRounds_undoEachOther k h2 (6 + 52 / v.length) v rfl
  rw [encChain, show (decChain k v).length = v.length from hlen]
  exact hundo

/-- R119, on words, whatever the datapath registers held at either start. -/
theorem decBlock_encBlock (k : KeyFile) (d d' : Datapath) {v : List Word} (h2 : 2 ≤ v.length) :
    (decBlock k d' (encBlock k d v).2).2 = v := by
  rw [decBlock_eq_decChain, encBlock_eq_encChain k d (by omega), decChain_encChain k h2]

/-- R119 in the reverse order, on words. -/
theorem encBlock_decBlock (k : KeyFile) (d d' : Datapath) {v : List Word} (h2 : 2 ≤ v.length) :
    (encBlock k d' (decBlock k d v).2).2 = v := by
  rw [encBlock_eq_encChain k d' (by rw [decBlock_length]; omega), decBlock_eq_decChain, encChain_decChain k h2]

/-! ### Two completions in a row (R119) -/

section
variable {i j : Instr} {f g : KeyFile → Datapath → List Word → Work}

/-- R127: ENC and DEC are accepted alike. -/
theorem block_accepts (hi : blockOf i = some f) (s : State) :
    Accepts s i ↔ s.legalBlock ∧ s.outLen = s.len ∧ s.keyValid = true := by
  cases i <;> cases hi <;> rfl

/-- The issue of a cipher command with a legal LEN, OUT_LEN = LEN and a valid key is accepted (R75, R127). -/
theorem exec_block_idle (hi : blockOf i = some f) {s : State} (hp : s.phase = .idle)
    (hv : s.legalBlock ∧ s.outLen = s.len ∧ s.keyValid = true) : exec i s = .next (s.accept i) :=
  (acceptanceOnlyMarksTheCommand s i hp ((block_accepts hi s).2 hv)).1

/-- R65: what a cipher command reads is its block. -/
theorem block_words_of_operandsWritten (hi : blockOf i = some f) {s : State} (hw : s.operandsWritten i) :
    ∃ v, s.words .data s.blockWords = some v := by
  cases i <;> cases hi <;> exact Option.isSome_iff_exists.1 (words_isSome.2 hw)

/-- After the completion of an accepted cipher command a second one is accepted. If it takes back on words what the first
did, its completion leaves K and every byte as they were before both. -/
theorem exec_block_undone (hi : blockOf i = some f) (hj : blockOf j = some g)
    (hundo : ∀ (k : KeyFile) (d d' : Datapath) {v : List Word}, 2 ≤ v.length → (g k d' (f k d v).2).2 = v) {s : State}
    (hp : s.phase = .busy i) (ha : Accepts s i) (hw : s.operandsWritten i) :
    ∃ t u v, exec i s = .next t ∧ exec j t = .next u ∧ u.phase = .busy j ∧ exec j u = .next v ∧ v.key = s.key ∧
      ∀ a, readByte v.mem a = readByte s.mem a := by
  obtain ⟨v, hv⟩ := block_words_of_operandsWritten hi hw
  have hacc := (block_accepts hi s).1 ha
  have h2 : 2 ≤ v.length := by
    obtain ⟨⟨hmin, -, -⟩, -, -⟩ := hacc
    rw [words_length hv, State.blockWords]
    omega
  have hlen : (f s.key s.dp v).2.length = s.blockWords := (blockOf_length hi ..).trans (words_length hv)
  refine ⟨_, _, _, exec_block hi hp hv, exec_block_idle hj rfl hacc, rfl,
    exec_block hj rfl (words_setWords s .data hlen), rfl, fun a => ?_⟩
  calc
    _ = readByte (s.setWords .data (g s.key (f s.key s.dp v).1 (f s.key s.dp v).2).2).mem a :=
      readByte_writeWords_writeWords (blockOf_length hj ..).symm s.mem (bufBase .data) a
    _ = readByte (s.setWords .data v).mem a := by rw [hundo s.key s.dp _ h2]
    _ = readByte s.mem a := readByte_writeWords_of_readWords hv a

end

/-- Settles O23: each command's chain takes back the other's, and storing the words that were there changes no byte. -/
theorem decAndEncUndoEachOther : Obligations.DecAndEncUndoEachOther := by
  intro s i j hij hp ha hw
  rcases hij with ⟨rfl, rfl⟩ | ⟨rfl, rfl⟩
  · exact exec_block_undone rfl rfl decBlock_encBlock hp ha hw
  · exact exec_block_undone rfl rfl encBlock_decBlock hp ha hw

end Sys2Proof.Machine
end

section
/-! Which words are illegal, and that a rejected CMD write raises its error and does nothing else (spec/30_encoding.md R67;
spec/60_exceptions.md R125–R129). -/

namespace Sys2Proof.Machine

/-! ### The illegal words (R67, R129) -/

/-- R61: the opcode of KEYSET, ENC or DEC makes no command exactly where TGT is 1. -/
theorem fixedCommand_ne_command_iff {b : Bool} {j : Instr} : (∀ i, fixedCommand b j ≠ .command i) ↔ b = true := by
  cases b with
  | false => exact iff_of_false (fun h => h j rfl) nofun
  | true => exact iff_of_true nofun rfl

/-- OP and TGT make no command exactly in two of the three kinds of R67; the third is the reserved bits. -/
theorem decodeFields_ne_command_iff {op : BitVec 4} {b : Bool} :
    (∀ i, decodeFields op b ≠ .command i) ↔
      (op = 0x0#4 ∨ 7 ≤ op.toNat) ∨ ((op = 0x1#4 ∨ op = 0x2#4 ∨ op = 0x3#4) ∧ b = true) := by
  unfold decodeFields
  split_ifs with h1 h2 h3 h4 h5 h6
  · simp [h1, fixedCommand_ne_command_iff]
  · simp [h2, fixedCommand_ne_command_iff]
  · simp [h3, fixedCommand_ne_command_iff]
  · simp [h4]
  · simp [h5]
  · simp [h6]
  · exact iff_of_true nofun (.inl (by bv_omega))

/-- R67: the three kinds are the words that decode to no command. -/
theorem illegalWord_iff {c : Word} : illegalWord c ↔ ∀ i, decode c ≠ .command i := by
  unfold decode
  by_cases hr : c.extractLsb' 5 27 = 0#27
  · rw [if_pos hr, decodeFields_ne_command_iff]
    simp [illegalWord, hr]
  · rw [if_neg hr]
    exact iff_of_true (.inr (.inr hr)) nofun

theorem issueWord_of_illegal {c : Word} (s : State) (h : illegalWord c) :
    issueWord c s = .next (s.raise .illegalCommand) := by
  unfold issueWord
  split
  · rename_i i hd
    exact absurd hd (illegalWord_iff.1 h i)
  · rfl

/-- R74: a write to CMD while idle is the issue of the word written. -/
theorem step_write_cmd_idle {s : State} {c : Word} (hp : s.phase = .idle) (he : s.nextEvent = .write 0x00C 4 c) :
    step s = issueWord c s.advance :=
  step_write_idle hp (by decide) he rfl

/-- Settles O4: a word of no command is not given to any validation. -/
theorem illegalWordsRaiseIllegalCommand : Obligations.IllegalWordsRaiseIllegalCommand :=
  fun _ => ⟨illegalWord_iff, fun s hp he hc => (step_write_cmd_idle hp he).trans (issueWord_of_illegal s.advance hc)⟩

/-! ### The checks of each command (R126–R128) -/

/-- R125: a command whose validation rejects raises the error, and nothing else changes. -/
theorem exec_of_reject {i : Instr} {s : State} {e : ErrorName} (hp : s.phase = .idle)
    (hv : verdict i s = .reject e) : exec i s = .next (s.raise e) := by
  rw [exec_idle i hp, hv]
  rfl

/-- Settles O9: the branches of `validateKeyset_eq`, in its order. -/
theorem keysetChecksLengthThenZero : Obligations.KeysetChecksLengthThenZero := by
  intro s hp
  refine ⟨fun hl => exec_of_reject hp (e := .invalidKeyLength) ?length,
    fun hl hn => (exec_idle_fault hp).2 ⟨rfl, rfl, hl, words_eq_none.2 hn⟩,
    fun w0 w1 w2 w3 hl h0 h1 h2 h3 hz => exec_of_reject hp (e := .zeroKey) ?zero⟩
  case length => rw [verdict, validateKeyset_eq, if_neg hl]
  case zero =>
    have hw : s.words .keybuf 4 = some [w0, w1, w2, w3] := words_keybuf_four.2 ⟨h0, h1, h2, h3⟩
    simp [verdict, validateKeyset_eq, hl, hw, orWords_four, hz]

/-- Settles O10: the branches of `validateCipher_eq`, in its order. -/
theorem cipherChecksInOrder : Obligations.CipherChecksInOrder := by
  intro s i hi hp
  have reject {e : ErrorName} (he : validateCipher s = .reject e) : exec i s = .next (s.raise e) := by
    rcases hi with rfl | rfl <;> exact exec_of_reject hp he
  refine ⟨fun hl => reject (e := .invalidDataLength) ?range, fun hlo hhi h4 =>
    ⟨fun ho => reject (e := .lengthMismatch) ?mismatch, fun ho hk => reject (e := .noKey) ?noKey⟩⟩
  case range => rw [validateCipher_eq, if_neg (by omega)]
  case mismatch => rw [validateCipher_eq, if_pos ⟨hlo, hhi, h4⟩, if_neg ho]
  case noKey => rw [validateCipher_eq, if_pos ⟨hlo, hhi, h4⟩, if_pos ho, if_neg (by simp [hk])]

/-- R87: the capacity of KEYBUF is 16 bytes and that of DATA 208, each against its own length register. -/
theorem bufCap_lt_bufLen_iff {s : State} {b : Target} : bufCap b < (s.bufLen b).toNat ↔
    (b = .keybuf ∧ 16 < s.keyLen.toNat) ∨ (b = .data ∧ 208 < s.len.toNat) := by
  cases b <;> simp [bufCap, bufWords, Config.kbuf, Config.nbuf, State.bufLen]

/-- Settles O11: a length of one of the three kinds is no legal layout. -/
theorem adapterChecksLength : Obligations.AdapterChecksLength := by
  intro s b i hi hp hl
  rw [← bufCap_lt_bufLen_iff] at hl
  have hv : validateAdapter b s = .reject .invalidLength := by
    rw [validateAdapter_eq, if_neg (by omega)]
  rcases hi with rfl | rfl | rfl <;> exact exec_of_reject hp (e := .invalidLength) hv

/-! ### Rejection is precise (R125) -/

/-- R124: the codes of the named errors are 1 to 7. -/
theorem errorCode_range (e : ErrorName) : 1 ≤ (errorCode e).toNat ∧ (errorCode e).toNat ≤ 7 := by
  cases e <;> decide

/-- The issue of a word accepts a command or raises an error (R74). -/
theorem issueWord_next {c : Word} {s t : State} (hp : s.phase = .idle) (h : issueWord c s = .next t) :
    (∃ i, t = s.accept i) ∨ ∃ e, t = s.raise e := by
  unfold issueWord at h
  split at h
  · rename_i i _
    exact (exec_idle_next hp h).imp_left fun ⟨_, ht⟩ => ⟨i, ht⟩
  · cases h
    exact .inr ⟨_, rfl⟩

/-- Settles O12: an accepted command leaves the core busy, so what leaves it idle has raised an error. -/
theorem rejectionIsPrecise : Obligations.RejectionIsPrecise := by
  intro s t c hp he h hidle
  rw [step_write_cmd_idle hp he] at h
  rcases issueWord_next (s := s.advance) hp h with ⟨i, rfl⟩ | ⟨e, rfl⟩
  · cases hidle
  · obtain ⟨hlo, hhi⟩ := errorCode_range e
    exact ⟨errorCode e, hlo, hhi, rfl, busy_of_idle hidle⟩

end Sys2Proof.Machine
end

section
/-! Which steps change ERR, and what the interrupt output shows (spec/10_state.md R27; spec/60_exceptions.md R132, R134,
R135). -/

namespace Sys2Proof.Machine

/-! ### ERR (R27, R132) -/

/-- A host write leaves ERR unless it is a write to CMD while idle. -/
theorem hostWrite_err {w : Nat} {v : Word} {s t : State} (h : hostWrite w v s = .next t) :
    t.err = s.err ∨ (s.phase = .idle ∧ w = 3) := by
  rcases phase_cases s with hp | ⟨i, hp⟩
  · rcases hostWrite_idle_next hp h with rfl | rfl | rfl | rfl | rfl | rfl | ⟨_, _, -, rfl⟩ | ⟨hw, -⟩ | ⟨hw, -⟩
    any_goals exact .inl rfl
    · exact .inr ⟨hp, hw⟩
    · exact .inr ⟨hp, hw⟩
  · obtain ⟨_, _, _, _, _, rfl⟩ := hostWrite_busyFrame hp h
    exact .inl rfl

/-- Settles O43: by the event of the step; a read and a completion leave ERR. -/
theorem errorStaysUntilTheNextCommand : Obligations.ErrorStaysUntilTheNextCommand := by
  intro s t h hne
  rcases step_next h with ⟨off, size, -, -, hr⟩ | ⟨off, size, v, he, ha, hw⟩ | ⟨-, -, rfl⟩ | ⟨i, -, hp, hx⟩ | ⟨he, -⟩
  · obtain ⟨_, _, _, _, _, rfl⟩ := hostRead_busyFrame hr
    exact absurd rfl hne
  · obtain ⟨rfl, h4, -⟩ := wordAccess_iff.1 ha
    obtain ⟨hp, hw3⟩ := (hostWrite_err hw).resolve_left hne
    obtain rfl : off = 0x00C := by omega
    exact .inr ⟨hp, v, he⟩
  · exact absurd rfl hne
  · obtain ⟨u, hu, rfl⟩ := exec_completes (s := s.advance) hp hx
    obtain ⟨-, -, -, -, -, -, herr, -⟩ := effect_frame hu
    exact absurd herr hne
  · exact .inl he

/-! ### The interrupt output (R134, R135) -/

theorem ctrlWord_getLsbD_zero (s : State) : s.ctrlWord.getLsbD 0 = s.irqEn := by
  rw [ctrlWord_eq]
  cases s.irqEn <;> rfl

/-- R22, R24: DONE is bit 1 of STATUS. -/
theorem statusWord_getLsbD_one (s : State) : s.statusWord.getLsbD 1 = s.done := by
  have hb := s.busy.toNat_le
  have hd := s.done.toNat_le
  have hbit : s.statusNumber / 2 ^ 1 % 2 = s.done.toNat := by
    rw [State.statusNumber]
    omega
  rw [← BitVec.testBit_toNat, toNat_statusWord, Nat.testBit_eq_decide_div_mod_eq, hbit]
  cases s.done <;> rfl

theorem irq_of_not_done {s : State} (h : s.done = false) : s.irq = false := by
  rw [State.irq, h, Bool.and_false]

/-- Settles O45: the first and third clauses are the level and its mask, the others each clear DONE. -/
theorem interruptFollowsEnableAndDone : Obligations.InterruptFollowsEnableAndDone := by
  refine ⟨fun s => ?level, fun s t v he hv h => ?clear, fun s t v he h => ?mask, fun s t i hp ha h => ?accept,
    fun s t he h => ?reset⟩
  case level => rw [ctrlWord_getLsbD_zero, statusWord_getLsbD_one, State.irq]
  case clear =>
    rw [step_write_word (by decide) he, hostWrite_status] at h
    cases h
    exact irq_of_not_done (by simp [hv])
  case mask =>
    rw [step_write_word (by decide) he, hostWrite_ctrl] at h
    cases h
    exact ⟨rfl, rfl⟩
  case accept =>
    rw [(acceptanceOnlyMarksTheCommand s i hp ha).1] at h
    cases h
    exact irq_of_not_done rfl
  case reset =>
    rw [step_reset he] at h
    cases h
    exact irq_of_not_done rfl

end Sys2Proof.Machine
end

section
/-! What the block shows after a reset (spec/10_state.md R35; spec/70_reset_and_hazards.md R143, R144). -/

namespace Sys2Proof.Machine

theorem resetBlock_ctrlWord (s : State) : (resetBlock s).ctrlWord = 0#32 := ctrlWord_eq _

theorem resetBlock_statusWord (s : State) : (resetBlock s).statusWord = 0#32 := statusWord_eq _

/-- R35: the byte store is empty after a reset, so no word of a buffer is written. -/
theorem resetBlock_written (s : State) (b : Target) (n : Nat) : (resetBlock s).written b n = false := rfl

/-- Settles O46: a step whose event is a reset answers the reset block, whatever the phase, and the fields the statement
lists are its fields. -/
theorem resetClearsTheBlock : Obligations.ResetClearsTheBlock := by
  intro s he
  exact ⟨resetBlock s.advance, step_reset he, rfl, resetBlock_statusWord _, resetBlock_ctrlWord _, rfl, rfl, rfl, rfl,
    rfl, irq_of_not_done rfl, resetBlock_written _⟩

end Sys2Proof.Machine
end
